-- ==== Sys2Proof/Word.lean ====
section
/-!
DEFINITION. The two bit-vector types of the block: the 8-bit TFP word (rule R41) and the 42-bit operation
vector (rule R44). Everything else the spec computes with is a natural number (rule R11).
-/

namespace Sys2Proof

/-- An 8-bit TFP word, bit 0 the least significant (rules R10, R41). The 8-bit PACK inputs (rule R23) use it too. -/
abbrev Word := BitVec 8

/-- The operation vector `V[41:0]` (rule R44). -/
abbrev OpVec := BitVec 42

end Sys2Proof
end

