-- ==== Sys2Proof/Config.lean ====
section
/-!
DEFINITION. What is fixed for the block (rules R6, R7), and the values the spec leaves open (rules R113, R115, R117:
"any value"), which are constants without a body: nothing can be proved of them beyond their type.
-/

namespace Sys2Proof

/-- The exponent bias (rule R6). No operation reads it; only the informative readings of rules R14 and R15 do. -/
def Config.bias : Nat := 7

/-- The largest in-range sign, which is also its mask (rules R6, R62). -/
def Config.signMask : Nat := 0b1

/-- The largest in-range exponent, which is also its mask (rules R6, R62). -/
def Config.expMask : Nat := 0b1111

/-- The largest in-range significand, which is also its mask (rules R6, R62). -/
def Config.sigMask : Nat := 0b111

/-- Width of the bit reversal of the significands before MUL's long multiplication (rule R90). -/
def Config.revInWidth : Nat := 3

/-- Width of the bit reversal of the product after it: `REV_OUT_WIDTH` of 93_implementation_defined.md I4, with the
value 6 of rule R92 (90_conflicts.md C1). -/
def Config.revOutWidth : Nat := 6

/-- The saturation word `SAT_WORD` (rule R7). -/
def Config.satWord : Word := 0x78#8

/-- FREE VALUE: what `y` holds at the `n`-th sample for which the spec allows any value (rules R113, R115, R117;
log entry 5). -/
opaque Config.freeY : Nat → BitVec 8

/-- FREE VALUE: `ys` at such a sample. It need not be a field of `freeY` ("every output may hold any value"). -/
opaque Config.freeYs : Nat → BitVec 1

/-- FREE VALUE: `ye` at such a sample. -/
opaque Config.freeYe : Nat → BitVec 4

/-- FREE VALUE: `yf` at such a sample. -/
opaque Config.freeYf : Nat → BitVec 3

/-- FREE VALUE: `st` at such a sample. -/
opaque Config.freeSt : Nat → BitVec 6

end Sys2Proof
end

