-- ==== Sys2Proof/Syntax.lean ====
section
/-!
DEFINITION. The operations of the block: one constructor per row of spec/opcode_table.json, carrying exactly the
ports rule R46 says the operation reads. An operand is a port value, so every operand of every constructor is legal
(rule R47); there are no immediates and no registers.
-/

namespace Sys2Proof

/-- One evaluation the block can be asked for (rules R45, R46, R50). -/
inductive Instr where
  /-- `UNPACK a` (rule R56). -/
  | unpack (a : Word)
  /-- `PACK ps, pe, pf` (rule R61). -/
  | pack (ps pe pf : Word)
  /-- `ADD a, b` (rule R70). -/
  | add (a b : Word)
  /-- `MUL a, b` (rule R86). -/
  | mul (a b : Word)
  deriving DecidableEq, Repr

end Sys2Proof
end

