-- ==== Sys2Proof/WellFormed.lean ====
section
/-!
DEFINITION. The checks a written thing must pass before it stands for something of the block. An `Instr` passes always:
its operands are 8-bit ports and every value of them is accepted (rule R47). What can be ill-formed is a NUMBER that is
written for a vector (rule R44: 42 bits) or for an operand (rule R50: 0 to 255), and a FIELD that does not fit the width
it is packed into (rules R57, R66).
-/

namespace Sys2Proof

/-- Every instruction is well-formed: no operand value is illegal or reserved (rule R47). -/
def Instr.WellFormed : Instr → Bool
  | .unpack _ => true
  | .pack _ _ _ => true
  | .add _ _ => true
  | .mul _ _ => true

/-- A number written for an operation vector has 42 bits (rules R44, R49). -/
abbrev IsVector (n : Nat) : Prop := n < 2 ^ 42

/-- A literal operand is in 0 to 255 (rule R50). -/
abbrev IsOperand (n : Nat) : Prop := n < 2 ^ 8

/-- Three field values that fit their widths (rules R59, R66). -/
abbrev FieldsFit (s e f : Nat) : Prop :=
  s ≤ Config.signMask ∧ e ≤ Config.expMask ∧ f ≤ Config.sigMask

end Sys2Proof
end

