-- ==== Sys2Proof/Decode.lean ====
section
/-!
DEFINITION. From an operation vector to the instruction it selects (rules R44 to R49), and back: the canonical vector
of an instruction (rule R51). Decoding a 42-bit vector never fails (rule R47); a NUMBER that is no 42-bit vector is
refused by name (log entry 10).
-/

namespace Sys2Proof

/-- The operation select codes as names (rule R45). -/
inductive Select where
  | unpack | pack | add | mul
  deriving DecidableEq, Repr

/-- Rule R45: `0b00` UNPACK, `0b01` PACK, `0b10` ADD, `0b11` MUL. -/
def Select.ofBits (c : BitVec 2) : Select :=
  if c = 0b00#2 then .unpack
  else if c = 0b01#2 then .pack
  else if c = 0b10#2 then .add
  else .mul

/-- The code of rule R45 for a name. -/
def Select.bits : Select → BitVec 2
  | .unpack => 0b00#2
  | .pack => 0b01#2
  | .add => 0b10#2
  | .mul => 0b11#2

/-- `V[41:40]` (rule R44). -/
def OpVec.op (v : OpVec) : BitVec 2 := v.extractLsb' 40 2
/-- `V[39:32]` (rule R44). -/
def OpVec.a (v : OpVec) : Word := v.extractLsb' 32 8
/-- `V[31:24]` (rule R44). -/
def OpVec.b (v : OpVec) : Word := v.extractLsb' 24 8
/-- `V[23:16]` (rule R44). -/
def OpVec.ps (v : OpVec) : Word := v.extractLsb' 16 8
/-- `V[15:8]` (rule R44). -/
def OpVec.pe (v : OpVec) : Word := v.extractLsb' 8 8
/-- `V[7:0]` (rule R44). -/
def OpVec.pf (v : OpVec) : Word := v.extractLsb' 0 8

/-- The vector of six port values, `{op, a, b, ps, pe, pf}` (rule R44). -/
def OpVec.ofPorts (op : BitVec 2) (a b ps pe pf : Word) : OpVec :=
  op ++ a ++ b ++ ps ++ pe ++ pf

/-- The instruction a vector selects: `op` chooses it, and it takes the fields rule R46 lists; the other fields are
ignored (rule R48). Total (rule R47). -/
def decode (v : OpVec) : Instr :=
  match Select.ofBits (OpVec.op v) with
  | .unpack => .unpack (OpVec.a v)
  | .pack => .pack (OpVec.ps v) (OpVec.pe v) (OpVec.pf v)
  | .add => .add (OpVec.a v) (OpVec.b v)
  | .mul => .mul (OpVec.a v) (OpVec.b v)

/-- Why a number is no operation vector. -/
inductive DecodeError where
  /-- It has a bit above `V[41]` (rules R44, R49). -/
  | moreThan42Bits (n : Nat)
  deriving DecidableEq, Repr

/-- Decode a vector written as a number (rule R44: 11 hexadecimal digits, of which the top one holds only two bits). -/
def decodeNumber (n : Nat) : Except DecodeError Instr :=
  if IsVector n then .ok (decode (BitVec.ofNat 42 n)) else .error (.moreThan42Bits n)

/-- The canonical vector of an instruction: every field it does not read is 0 (rules R48, R51). -/
def encode : Instr → OpVec
  | .unpack a => OpVec.ofPorts (Select.bits .unpack) a 0 0 0 0
  | .pack ps pe pf => OpVec.ofPorts (Select.bits .pack) 0 0 ps pe pf
  | .add a b => OpVec.ofPorts (Select.bits .add) a b 0 0 0
  | .mul a b => OpVec.ofPorts (Select.bits .mul) a b 0 0 0

/-- What the decoder reads from an opcode-table word of `nbits` bits, bit 0 the least significant bit of the vector as
spec/opcode_table.json numbers it. Bits above `nbits` are 0. -/
def decodeTableWord (nbits w : Nat) : Option Instr :=
  match decodeNumber (w % 2 ^ nbits) with
  | .ok i => some i
  | .error _ => none

end Sys2Proof
end

