-- ==== Sys2Proof/Machine/State.lean ====
section
/-!
DEFINITION. The state of the model. The block itself keeps none (rules R17 to R20): what stands here is its ports, the
inputs as the caller drives them now and the outputs as the caller last sampled them, and one counter of the model's own.
-/

namespace Sys2Proof.Machine

/-- The six input ports (rules R21 to R23). `none` says that at least one bit of the port is undriven or unknown
(rule R115); what the other bits of such a port are makes no difference to any rule (log entry 3). -/
structure Inputs where
  op : Option (BitVec 2)
  a : Option Word
  b : Option Word
  ps : Option Word
  pe : Option Word
  pf : Option Word
  deriving DecidableEq, Repr

/-- The five output ports (rules R24 to R26), sampled together (rule R36). -/
structure Outputs where
  y : Word
  ys : BitVec 1
  ye : BitVec 4
  yf : BitVec 3
  st : BitVec 6
  deriving DecidableEq, Repr

/-- The ports, whether the inputs have settled, and the count of free values drawn. -/
structure State where
  /-- The input ports as the caller drives them (rules R21 to R23). -/
  inp : Inputs
  /-- `op` and every input the operation reads have been stable for `T_PD` (rules R113, R117; log entry 4). -/
  stable : Bool
  /-- The outputs the last evaluation ended with (rules R24 to R26, R121). -/
  out : Outputs
  /-- THE MODEL'S OWN: how many times a sample had to give "any value" (log entry 5). -/
  draws : Nat
  deriving DecidableEq, Repr

/-- Reasons the block stops with a fault: there are none, "no operation raises an exception, traps, stalls or aborts"
(rule R100). Safe: a step can then never end in a fault. -/
inductive Fault where
  deriving DecidableEq, Repr

/-- Reasons the model gives an instruction no meaning. -/
inductive Refusal where
  /-- An arm of `exec` whose instruction has no meaning yet. No arm raises it: all four operations are modelled.
  Safe: it stops where the block goes on. -/
  | notModelled (mnemonic : String)
  deriving DecidableEq, Repr

/-- Input ports nobody drives (rule R115). -/
def Inputs.undriven : Inputs :=
  { op := none, a := none, b := none, ps := none, pe := none, pf := none }

/-- Power-up. There is no reset and nothing to reset (rules R112, R114). No caller has driven an input yet, so nothing
has been stable; no evaluation has ended yet, and the record of its outputs holds 0 (DESIGN CHOICE, log entry 6). -/
def State.reset : State :=
  { inp := Inputs.undriven
    stable := false
    out := { y := 0, ys := 0, ye := 0, yf := 0, st := 0 }
    draws := 0 }

end Sys2Proof.Machine
end

