-- ==== Sys2Proof/Machine/Operands.lean ====
section
/-!
DEFINITION. The data the operations take apart and put together: the unpacked triple, field extraction (rule R42), word
composition (rule R43) and bit reversal (rule R12). All arithmetic is on natural numbers (rule R11).
-/

namespace Sys2Proof.Machine

/-- The unpacked triple (sign, exponent, significand): a transient of one evaluation (rules R19, R29). -/
structure Fields where
  s : Nat
  e : Nat
  f : Nat
  deriving DecidableEq, Repr

/-- Field extraction (rule R42). -/
def unpack (w : Word) : Fields :=
  { s := w.toNat >>> 7
    e := (w.toNat &&& 0b01111000) >>> 3
    f := w.toNat &&& 0b00000111 }

/-- Word composition: each field is cut to its width first, so none reaches its neighbour (rules R43, R65). -/
def packWord (s e f : Nat) : Word :=
  BitVec.ofNat 8 (((s &&& 0b1) <<< 7) ||| ((e &&& 0b1111) <<< 3) ||| (f &&& 0b111))

/-- Bit reversal over `n` bits (rule R12): bit `n-1-k` of the result is bit `k` of `x`. -/
def rev (n x : Nat) : Nat :=
  (List.range n).foldl (fun r k => r ||| (((x >>> k) &&& 1) <<< (n - 1 - k))) 0

end Sys2Proof.Machine
end

