-- ==== Sys2Proof/Machine/Flags.lean ====
section
/-!
DEFINITION. The status output (rules R26, R27): its six conditions by name, the word they make, the accessors that read
one bit of it, and the PACK validation that computes ES, EE and EF (rules R62, R63).
-/

namespace Sys2Proof.Machine

/-- The six conditions of rule R27. One an operation cannot set is false for it. -/
structure Status where
  es : Bool := false
  ee : Bool := false
  ef : Bool := false
  sat : Bool := false
  zs : Bool := false
  uf : Bool := false
  deriving DecidableEq, Repr

/-- The status word `{UF, ZS, SAT, EF, EE, ES}` (rules R26, R27). -/
def Status.word (c : Status) : BitVec 6 :=
  BitVec.ofBool c.uf ++ BitVec.ofBool c.zs ++ BitVec.ofBool c.sat
    ++ BitVec.ofBool c.ef ++ BitVec.ofBool c.ee ++ BitVec.ofBool c.es

/-- `st[0]` (rule R27). -/
def Outputs.es (o : Outputs) : Bool := o.st.getLsbD 0
/-- `st[1]` (rule R27). -/
def Outputs.ee (o : Outputs) : Bool := o.st.getLsbD 1
/-- `st[2]` (rule R27). -/
def Outputs.ef (o : Outputs) : Bool := o.st.getLsbD 2
/-- `st[3]` (rule R27). -/
def Outputs.sat (o : Outputs) : Bool := o.st.getLsbD 3
/-- `st[4]` (rule R27). -/
def Outputs.zs (o : Outputs) : Bool := o.st.getLsbD 4
/-- `st[5]` (rule R27). -/
def Outputs.uf (o : Outputs) : Bool := o.st.getLsbD 5

/-- PACK's validation of its three inputs: a field is out of range when it exceeds its mask (rules R61, R62, R63). -/
def validate (ps pe pf : Word) : Status :=
  { es := decide (Config.signMask < ps.toNat)
    ee := decide (Config.expMask < pe.toNat)
    ef := decide (Config.sigMask < pf.toNat) }

end Sys2Proof.Machine
end

