-- ==== Sys2Proof/Machine/Ops.lean ====
section
/-!
DEFINITION. The named operations on the ports: reading the operation vector off the input ports (when they are driven
and stable), driving the outputs, and sampling them, whether they are a result or any value. The block has no memory,
no register and no exception (rules R32, R19, R100), so there is no operation on any of these.
-/

namespace Sys2Proof.Machine

/-- `op` and every input the operation it selects reads are driven on every bit (rules R46, R115). -/
def Inputs.driven (p : Inputs) : Bool :=
  match p.op with
  | none => false
  | some c =>
    match Select.ofBits c with
    | .unpack => p.a.isSome
    | .pack => p.ps.isSome && p.pe.isSome && p.pf.isSome
    | .add => p.a.isSome && p.b.isSome
    | .mul => p.a.isSome && p.b.isSome

/-- The ports as a vector (rule R44). An undriven port stands as 0; where the inputs are `driven` it is an ignored one,
whose value makes no difference (rules R30, R48; log entry 8). -/
def Inputs.vector (p : Inputs) : OpVec :=
  OpVec.ofPorts (p.op.getD 0) (p.a.getD 0) (p.b.getD 0) (p.ps.getD 0) (p.pe.getD 0) (p.pf.getD 0)

/-- Every port driven with its field of a vector (rule R44). -/
def Inputs.ofVector (v : OpVec) : Inputs :=
  { op := some (OpVec.op v), a := some (OpVec.a v), b := some (OpVec.b v)
    ps := some (OpVec.ps v), pe := some (OpVec.pe v), pf := some (OpVec.pf v) }

/-- The caller has met both its duties: driven (rule R115) and stable (rule R117). -/
def State.ready (s : State) : Bool := s.stable && s.inp.driven

/-- The operation vector the block evaluates now, when the outputs are determined at all. -/
def State.fetch (s : State) : Option OpVec :=
  if s.ready then some s.inp.vector else none

/-- The output bundle of a result word: `ys`, `ye`, `yf` are the fields of `y` for every operation (rule R25). -/
def Outputs.ofResult (y : Word) (c : Status) : Outputs :=
  { y := y
    ys := y.extractLsb' 7 1
    ye := y.extractLsb' 3 4
    yf := y.extractLsb' 0 3
    st := c.word }

/-- The caller samples all outputs at once; the inputs stay as they are driven (rules R36, R120, R121). -/
def State.sample (s : State) (o : Outputs) : State := { s with out := o }

/-- The `n`-th free value of the outputs. -/
def Outputs.free (n : Nat) : Outputs :=
  { y := Config.freeY n
    ys := Config.freeYs n
    ye := Config.freeYe n
    yf := Config.freeYf n
    st := Config.freeSt n }

/-- The caller samples although a read input is undriven or not yet stable: every output holds any value (rules R113,
R115, R117; log entry 5). -/
def State.sampleAny (s : State) : State :=
  { s with out := Outputs.free s.draws, draws := s.draws + 1 }

end Sys2Proof.Machine
end

