-- ==== Sys2Proof/Machine/Arith.lean ====
section
/-!
DEFINITION. The steps ADD and MUL share: right normalisation (rules R76, R93), left normalisation with the zero special
case and the exponent clamp (rules R77, R78, R79), saturation (rules R80, R96), the rounding step (rules R81, R97) and
the composition of the result (rules R83, R98).
-/

namespace Sys2Proof.Machine

/-- The working values of one evaluation (rule R29), named as in the pseudocode of rules R70 and R86. -/
structure Working where
  s : Nat
  e : Nat
  f : Nat
  sat : Bool := false
  zs : Bool := false
  uf : Bool := false
  deriving DecidableEq, Repr

/-- `while f >= 8: f <- f >> 1 ; e <- e + 1`, at most `fuel` times round. -/
def normaliseRightLoop : (fuel : Nat) → Working → Working
  | 0, w => w
  | k + 1, w =>
    if 8 ≤ w.f then normaliseRightLoop k { w with f := w.f >>> 1, e := w.e + 1 } else w

/-- Right normalisation (rules R76, R93). The significand halves at each turn, so its own value is fuel enough. -/
def normaliseRight (w : Working) : Working := normaliseRightLoop w.f w

/-- `while f < 4: if e == 0 then UF <- 1, break; f <- f << 1 ; e <- e - 1` (rules R77, R79), from exponent `e` and
significand `f`: the exponent, the significand and UF afterwards. It counts down the exponent, so it ends. -/
def normaliseLeftLoop : (e f : Nat) → Nat × Nat × Bool
  | 0, f => (0, f, decide (f < 4))
  | e + 1, f => if f < 4 then normaliseLeftLoop e (f <<< 1) else (e + 1, f, false)

/-- Left normalisation: skipped, with ZS set, when the significand is 0 (rule R78). -/
def normaliseLeft (w : Working) : Working :=
  if w.f = 0 then { w with zs := true }
  else
    match normaliseLeftLoop w.e w.f with
    | (e, f, uf) => { w with e := e, f := f, uf := uf }

/-- Saturation: an exponent above 15 forces sign 0, exponent 15, significand 0 and sets SAT (rules R80, R96). -/
def saturate (w : Working) : Working :=
  if 15 < w.e then { w with s := 0, e := 15, f := 0, sat := true } else w

/-- The rounding step, literally: the exponent is not changed (rules R81, R97). -/
def roundStep (w : Working) : Working :=
  if w.f &&& 8 ≠ 0 then { w with f := (w.f + 8) >>> 1 } else w

/-- Composition of the result and its status: ES, EE and EF stay 0 (rules R69, R83, R98). -/
def finish (w : Working) : Outputs :=
  Outputs.ofResult (packWord w.s w.e w.f) { sat := w.sat, zs := w.zs, uf := w.uf }

end Sys2Proof.Machine
end

