-- ==== Sys2Proof/Machine/Add.lean ====
section
/-!
DEFINITION. ADD (rule R70), step by step as rules R71 to R83 number the steps.
-/

namespace Sys2Proof.Machine

/-- Step 2, alignment: the stored significand with the smaller exponent is shifted right, logically, by the difference,
without its implicit leading 1; the answer is the two significands and the common exponent (rules R72, R73). -/
def align (x y : Fields) : Nat × Nat × Nat :=
  if x.e < y.e then (x.f >>> (y.e - x.e), y.f, y.e)
  else if y.e < x.e then (x.f, y.f >>> (x.e - y.e), x.e)
  else (x.f, y.f, x.e)

/-- Steps 1 to 4: unpack both, align, take the sign of `a`, add the significands (rules R71 to R75). -/
def addSum (a b : Word) : Working :=
  match align (unpack a) (unpack b) with
  | (fa, fb, e) => { s := (unpack a).s, e := e, f := fa + fb }

/-- Step 5: right, then left normalisation (rules R76 to R79). -/
def addNormalised (a b : Word) : Working := normaliseLeft (normaliseRight (addSum a b))

/-- The outputs of ADD: saturate, round, compose (rules R80, R81, R83). -/
def addOutputs (a b : Word) : Outputs := finish (roundStep (saturate (addNormalised a b)))

/-- ADD (rule R70). -/
def execAdd (a b : Word) (s : State) : Host.Outcome State Fault Refusal :=
  .next (s.sample (addOutputs a b))

end Sys2Proof.Machine
end

