-- ==== Sys2Proof/Machine/Codec.lean ====
section
/-!
DEFINITION. UNPACK (rule R56) and PACK (rule R61).
-/

namespace Sys2Proof.Machine

/-- The outputs of UNPACK: the word itself, its fields, status 0 (rule R56). -/
def unpackOutputs (a : Word) : Outputs := Outputs.ofResult a {}

/-- The outputs of PACK: the composed word, its fields, and one bit per field out of range; validation is advisory and
stops nothing (rules R61, R64). -/
def packOutputs (ps pe pf : Word) : Outputs :=
  Outputs.ofResult (packWord ps.toNat pe.toNat pf.toNat) (validate ps pe pf)

/-- UNPACK (rule R56). -/
def execUnpack (a : Word) (s : State) : Host.Outcome State Fault Refusal :=
  .next (s.sample (unpackOutputs a))

/-- PACK (rule R61). -/
def execPack (ps pe pf : Word) (s : State) : Host.Outcome State Fault Refusal :=
  .next (s.sample (packOutputs ps pe pf))

end Sys2Proof.Machine
end

