-- ==== Sys2Proof/Machine/Mul.lean ====
section
/-!
DEFINITION. MUL (rule R86), step by step as rules R87 to R98 number the steps.
-/

namespace Sys2Proof.Machine

/-- Long multiplication of two 3-bit values: `1 << (i + j)` for every pair of set bits (rule R91). -/
def longMul (ra rb : Nat) : Nat :=
  (List.range Config.revInWidth).foldl
    (fun p i =>
      (List.range Config.revInWidth).foldl
        (fun q j => if ra.testBit i && rb.testBit j then q + (1 <<< (i + j)) else q) p) 0

/-- Step 3: reverse both significands over 3 bits, multiply, reverse the product over 6 bits (rules R90, R91, R92). -/
def mulSignificand (fa fb : Nat) : Nat :=
  rev Config.revOutWidth (longMul (rev Config.revInWidth fa) (rev Config.revInWidth fb))

/-- Steps 1 to 3: unpack both, XOR the signs, add the biased exponents without subtracting the bias, multiply the
significands (rules R87 to R92). -/
def mulProduct (a b : Word) : Working :=
  { s := (unpack a).s ^^^ (unpack b).s
    e := (unpack a).e + (unpack b).e
    f := mulSignificand (unpack a).f (unpack b).f }

/-- Step 4: right normalisation only (rules R93, R94). -/
def mulNormalised (a b : Word) : Working := normaliseRight (mulProduct a b)

/-- The outputs of MUL: saturate, round, compose (rules R96, R97, R98). -/
def mulOutputs (a b : Word) : Outputs := finish (roundStep (saturate (mulNormalised a b)))

/-- MUL (rule R86). -/
def execMul (a b : Word) (s : State) : Host.Outcome State Fault Refusal :=
  .next (s.sample (mulOutputs a b))

end Sys2Proof.Machine
end

