-- ==== Sys2Proof/Machine/Dispatch.lean ====
section
/-!
DEFINITION. The one match from an instruction to its meaning.
-/

namespace Sys2Proof.Machine

/-- One evaluation of the operation an instruction names (rules R45, R116). -/
def exec (i : Instr) (s : State) : Host.Outcome State Fault Refusal :=
  match i with
  | .unpack a => Sys2Proof.Machine.execUnpack a s
  | .pack ps pe pf => Sys2Proof.Machine.execPack ps pe pf s
  | .add a b => Sys2Proof.Machine.execAdd a b s
  | .mul a b => Sys2Proof.Machine.execMul a b s

end Sys2Proof.Machine
end

