-- ==== Sys2Proof/Machine/Step.lean ====
section
/-!
DEFINITION. One step: the caller samples the outputs of the present inputs once (rules R116, R121). Nothing is fetched
from a memory and nothing is counted (rules R18, R39): the operation is the one the input ports select now.
-/

namespace Sys2Proof.Machine

/-- One evaluation. Where the inputs determine the outputs it is the evaluation of the operation they select; where they
do not (rules R113, R115, R117) every output holds any value. -/
def step (s : State) : Host.Outcome State Fault Refusal :=
  match s.fetch with
  | some v => exec (decode v) s
  | none => .next s.sampleAny

/-- `s` with the opcode-table word `w` on its input ports, every port driven and stable: all that the next step needs
to evaluate it (rules R44, R115, R117; log entry 7). -/
def State.withFetchWord (s : State) (nbits w : Nat) : State :=
  { s with inp := Inputs.ofVector (BitVec.ofNat 42 (w % 2 ^ nbits)), stable := true }

end Sys2Proof.Machine
end

