-- ==== Sys2Proof/Machine/Assembler.lean ====
section
/-!
DEFINITION. The assembler notation of one line (rules R50 to R52, R54) and disassembly (rule R55). It is the spec's
notation for writing evaluations down; nothing of it is part of the block.
-/

namespace Sys2Proof.Machine

/-- Which output of an earlier evaluation a reference takes: `tN` or `tN.y`, `tN.s`, `tN.e`, `tN.f` (rule R52). -/
inductive Part where
  | y | s | e | f
  deriving DecidableEq, Repr

/-- An operand as written: a literal, or a reference to a named result (rules R50, R52). -/
inductive Operand where
  | lit (n : Nat)
  | ref (name : String) (part : Part)
  deriving DecidableEq, Repr

/-- One operation as written; there are no pseudo-instructions (rules R50, R54). -/
inductive Line where
  | unpack (a : Operand)
  | pack (ps pe pf : Operand)
  | add (a b : Operand)
  | mul (a b : Operand)
  deriving DecidableEq, Repr

/-- Why a line has no vector, or a caller's program does not run to its end. -/
inductive CallerError where
  /-- A literal outside 0 to 255 is refused by the assembler (rule R50). -/
  | literalOutOfRange (n : Nat)
  /-- A reference to a name no earlier line is labelled with (rule R52). -/
  | unboundName (name : String)
  /-- Text that is no line of rule R50 or R52. -/
  | notALine
  /-- The caller's loop was still running when the model's bound on its turns was used up (log entry 16). -/
  | loopBound
  /-- The block's step ended otherwise than in a next state; no step does (rule R100). -/
  | blockStopped
  deriving DecidableEq, Repr

/-- The results bound so far, newest first: a name bound again hides its older binding (rule R52). -/
abbrev Results := List (String × Outputs)

/-- The outputs bound to a name. -/
def Results.find : Results → String → Except CallerError Outputs
  | [], name => .error (.unboundName name)
  | (n, o) :: rest, name => if n = name then .ok o else Results.find rest name

/-- The value a reference drives, zero-extended to 8 bits (rule R52). -/
def Outputs.part (o : Outputs) : Part → Word
  | .y => o.y
  | .s => o.ys.setWidth 8
  | .e => o.ye.setWidth 8
  | .f => o.yf.setWidth 8

/-- The port value of an operand (rules R50, R52). -/
def Operand.resolve (env : Results) : Operand → Except CallerError Word
  | .lit n => if IsOperand n then .ok (BitVec.ofNat 8 n) else .error (.literalOutOfRange n)
  | .ref name part =>
    match Results.find env name with
    | .ok o => .ok (o.part part)
    | .error r => .error r

/-- The instruction of a line (rules R50, R52). Its canonical vector is `encode` of it (rule R51). -/
def Line.assemble (env : Results) : Line → Except CallerError Instr
  | .unpack a => do return .unpack (← a.resolve env)
  | .pack ps pe pf => do return .pack (← ps.resolve env) (← pe.resolve env) (← pf.resolve env)
  | .add a b => do return .add (← a.resolve env) (← b.resolve env)
  | .mul a b => do return .mul (← a.resolve env) (← b.resolve env)

/-- A word as a literal operand. -/
def Operand.ofWord (w : Word) : Operand := .lit w.toNat

/-- Disassembly of a vector: the mnemonic `op` selects and the fields it reads (rule R55). -/
def disassemble (v : OpVec) : Line :=
  match decode v with
  | .unpack a => .unpack (.ofWord a)
  | .pack ps pe pf => .pack (.ofWord ps) (.ofWord pe) (.ofWord pf)
  | .add a b => .add (.ofWord a) (.ofWord b)
  | .mul a b => .mul (.ofWord a) (.ofWord b)

/-- One hexadecimal digit, upper case as the spec writes it. -/
def hexDigit (n : Nat) : Char := if n < 10 then Char.ofNat (48 + n) else Char.ofNat (55 + n)

/-- A word as `0x` and two hexadecimal digits (rule R55). -/
def hexWord (w : Word) : List Char :=
  ['0', 'x', hexDigit (w.toNat / 16), hexDigit (w.toNat % 16)]

/-- The printed line of a vector (rule R55). -/
def disassembleText (v : OpVec) : List Char :=
  match decode v with
  | .unpack a => "UNPACK ".toList ++ hexWord a
  | .pack ps pe pf => "PACK ".toList ++ hexWord ps ++ ", ".toList ++ hexWord pe ++ ", ".toList ++ hexWord pf
  | .add a b => "ADD ".toList ++ hexWord a ++ ", ".toList ++ hexWord b
  | .mul a b => "MUL ".toList ++ hexWord a ++ ", ".toList ++ hexWord b

/-- The value of a digit character below `base`. -/
def digitValue (base : Nat) (c : Char) : Option Nat :=
  let n := c.toNat
  let d := if 48 ≤ n ∧ n ≤ 57 then n - 48
    else if 65 ≤ n ∧ n ≤ 70 then n - 55
    else if 97 ≤ n ∧ n ≤ 102 then n - 87
    else base
  if d < base then some d else none

/-- A number from its digits, most significant first, after `acc`. -/
def digitsValue (base : Nat) : (acc : Nat) → List Char → Option Nat
  | acc, [] => some acc
  | acc, c :: cs =>
    match digitValue base c with
    | some d => digitsValue base (acc * base + d) cs
    | none => none

/-- A literal: `0x3F`, `0b00111111` or `63` (rule R50). -/
def parseLiteral : List Char → Option Nat
  | '0' :: 'x' :: c :: cs => digitsValue 16 0 (c :: cs)
  | '0' :: 'b' :: c :: cs => digitsValue 2 0 (c :: cs)
  | c :: cs => digitsValue 10 0 (c :: cs)
  | [] => none

/-- The pieces of a text between the characters `sep`. -/
def splitAtChar (sep : Char) : List Char → List (List Char)
  | [] => [[]]
  | c :: cs =>
    if c = sep then [] :: splitAtChar sep cs
    else
      match splitAtChar sep cs with
      | p :: ps => (c :: p) :: ps
      | [] => [[c]]

/-- A text without its spaces at either end. -/
def trimSpaces (cs : List Char) : List Char :=
  ((cs.dropWhile (· = ' ')).reverse.dropWhile (· = ' ')).reverse

/-- An operand: it is a literal when it begins with a digit, else a name with an optional part (rules R50, R52). -/
def parseOperand (cs : List Char) : Option Operand :=
  match trimSpaces cs with
  | [] => none
  | c :: rest =>
    if (digitValue 10 c).isSome then (parseLiteral (c :: rest)).map .lit
    else
      match splitAtChar '.' (c :: rest) with
      | [n] => some (.ref (String.ofList n) .y)
      | [n, ['y']] => some (.ref (String.ofList n) .y)
      | [n, ['s']] => some (.ref (String.ofList n) .s)
      | [n, ['e']] => some (.ref (String.ofList n) .e)
      | [n, ['f']] => some (.ref (String.ofList n) .f)
      | _ => none

/-- One line: an upper-case mnemonic, then its operands separated by commas (rule R50). -/
def parseLine (cs : List Char) : Except CallerError Line :=
  let text := trimSpaces cs
  let word := text.takeWhile (· ≠ ' ')
  let operands := (splitAtChar ',' (text.dropWhile (· ≠ ' '))).map parseOperand
  match word, operands with
  | ['U', 'N', 'P', 'A', 'C', 'K'], [some a] => .ok (.unpack a)
  | ['P', 'A', 'C', 'K'], [some ps, some pe, some pf] => .ok (.pack ps pe pf)
  | ['A', 'D', 'D'], [some a, some b] => .ok (.add a b)
  | ['M', 'U', 'L'], [some a, some b] => .ok (.mul a b)
  | _, _ => .error .notALine

/-- A line, labelled with a result name or not: `tN <- OP operands` (rule R52). -/
structure Assign where
  dest : Option String
  line : Line
  deriving DecidableEq, Repr

/-- A line with its label, if it has one (rule R52). -/
def parseAssign (cs : List Char) : Except CallerError Assign :=
  let name := (trimSpaces cs).takeWhile (· ≠ ' ')
  match trimSpaces ((trimSpaces cs).dropWhile (· ≠ ' ')) with
  | '<' :: '-' :: rest =>
    match parseLine rest with
    | .ok l => .ok { dest := some (String.ofList name), line := l }
    | .error r => .error r
  | _ =>
    match parseLine cs with
    | .ok l => .ok { dest := none, line := l }
    | .error r => .error r

end Sys2Proof.Machine
end

