-- ==== Sys2Proof/Machine/Caller.lean ====
section
/-!
DEFINITION. What the caller does to the block (rule R120): drive the inputs, hold them, sample the outputs, chain them,
accumulate status; and the caller's programs (rules R52, R53). The caller is no part of the block and none of this is
in `step`.
-/

namespace Sys2Proof.Machine

/-- Two settings of the inputs agree on `op` and on every input the operation it selects reads (rules R30, R46). -/
def Inputs.sameRead (p q : Inputs) : Bool :=
  decide (p.op = q.op) &&
    match p.op with
    | none => false
    | some c =>
      match Select.ofBits c with
      | .unpack => decide (p.a = q.a)
      | .pack => decide (p.ps = q.ps) && decide (p.pe = q.pe) && decide (p.pf = q.pf)
      | .add => decide (p.a = q.a) && decide (p.b = q.b)
      | .mul => decide (p.a = q.a) && decide (p.b = q.b)

/-- The caller drives the inputs anew. They are stable still only if nothing changed that the operation reads (rules
R117, R120). -/
def State.drive (s : State) (p : Inputs) : State :=
  { s with inp := p, stable := s.stable && p.sameRead s.inp }

/-- The caller holds the inputs for at least `T_PD` (rule R117). -/
def State.settle (s : State) : State := { s with stable := true }

/-- One evaluation of a vector, from driving it to sampling its outputs (rules R120, R121). -/
def State.evaluate (s : State) (v : OpVec) : Host.Outcome State Fault Refusal :=
  step (s.drive (Inputs.ofVector v)).settle

/-- A caller's own summary of status over evaluations (rules R28, R120). -/
def accumulateStatus (acc st : BitVec 6) : BitVec 6 := acc ||| st

/-- A status bit by name (rules R27, R52). -/
inductive StatusBit where
  | es | ee | ef | sat | zs | uf
  deriving DecidableEq, Repr

/-- The status bit of an evaluation. -/
def Outputs.bit (o : Outputs) : StatusBit → Bool
  | .es => o.es
  | .ee => o.ee
  | .ef => o.ef
  | .sat => o.sat
  | .zs => o.zs
  | .uf => o.uf

/-- The condition of a caller's loop (rule R53). -/
inductive Cond where
  /-- `tN.st.X` -/
  | isSet (name : String) (bit : StatusBit)
  /-- `!tN.st.X` -/
  | isClear (name : String) (bit : StatusBit)
  /-- `tN = literal` -/
  | equals (name : String) (n : Nat)
  deriving DecidableEq, Repr

/-- A caller's program is a list of these (rules R52, R53). -/
inductive Item where
  | one (a : Assign)
  | repeatUntil (body : List Assign) (until_ : Cond)
  deriving DecidableEq, Repr

/-- Whether a loop's condition holds (rule R53). A literal outside 0 to 255 is refused (rule R50). -/
def Cond.eval (env : Results) : Cond → Except CallerError Bool
  | .isSet n b => do return (← Results.find env n).bit b
  | .isClear n b => do return !(← Results.find env n).bit b
  | .equals n k => do
    let o ← Results.find env n
    if IsOperand k then return decide (o.y.toNat = k) else throw (.literalOutOfRange k)

/-- The caller evaluates one line and binds its outputs to the line's label (rule R52). -/
def runAssign (a : Assign) : State × Results → Except CallerError (State × Results)
  | (s, env) => do
    let i ← a.line.assemble env
    match s.evaluate (encode i) with
    | .next t =>
      match a.dest with
      | some n => return (t, (n, t.out) :: env)
      | none => return (t, env)
    | _ => throw .blockStopped

/-- Lines in order. -/
def runAssigns : List Assign → State × Results → Except CallerError (State × Results)
  | [], c => .ok c
  | a :: rest, c => do runAssigns rest (← runAssign a c)

/-- `repeat … until`: the lines, then the condition, at most `bound` times round (rule R53; log entry 16). -/
def runRepeat (body : List Assign) (c : Cond) :
    (bound : Nat) → State × Results → Except CallerError (State × Results)
  | 0, _ => .error .loopBound
  | k + 1, x => do
    let x ← runAssigns body x
    if ← c.eval x.2 then return x else runRepeat body c k x

/-- A caller's program from a state with the results bound so far. -/
def runProgram (bound : Nat) : List Item → State × Results → Except CallerError (State × Results)
  | [], c => .ok c
  | .one a :: rest, c => do runProgram bound rest (← runAssign a c)
  | .repeatUntil body u :: rest, c => do runProgram bound rest (← runRepeat body u bound c)

end Sys2Proof.Machine
end

