-- ==== Sys2Proof/Safety.lean ====
section
/-!
DEFINITION. The terms claims are stated in: when the inputs determine the outputs, when outputs agree among themselves,
when an evaluation stays inside what the SOURCE defines, and the closed forms the operations are compared with. None of
it is used by the model.
-/

namespace Sys2Proof.Safety

open Sys2Proof Sys2Proof.Machine

/-- `ys`, `ye`, `yf` are the fields of `y` (rule R25). -/
abbrev Coherent (o : Outputs) : Prop :=
  o.ys.toNat = o.y.toNat / 128 ∧ o.ye.toNat = o.y.toNat / 8 % 16 ∧ o.yf.toNat = o.y.toNat % 8

/-- Which status bits can be set together (rule R104): SAT, ZS, UF exclude each other, and ES, EE, EF never meet
them. -/
abbrev StatusLegal (o : Outputs) : Prop :=
  ((o.es || o.ee || o.ef) = true → (o.sat || o.zs || o.uf) = false) ∧
    ¬ (o.sat = true ∧ o.zs = true) ∧ ¬ (o.sat = true ∧ o.uf = true) ∧ ¬ (o.zs = true ∧ o.uf = true)

/-- What a status bit of the arithmetic says of the word beside it (rules R78, R79, R80). -/
abbrev StatusTellsWord (o : Outputs) : Prop :=
  (o.sat = true → o.y = Config.satWord) ∧
    (o.zs = true → o.yf.toNat = 0) ∧
    (o.uf = true → o.ye.toNat = 0 ∧ 1 ≤ o.yf.toNat ∧ o.yf.toNat ≤ 3)

/-- Outputs an evaluation can end with. -/
abbrev Consistent (o : Outputs) : Prop := Coherent o ∧ StatusLegal o ∧ StatusTellsWord o

/-- The invariant of the machine: the outputs last sampled are consistent, or they are one of the free values drawn so
far. The form of the free values and of their counter is the model's choice (log entry 5). -/
def OutputInv (s : State) : Prop :=
  Consistent s.out ∨ ∃ n, n < s.draws ∧ s.out = Outputs.free n

/-- The evaluation stays inside what the source itself defines: no field out of range, no zero sum, no clamp
(93_implementation_defined.md I1, I2, I3; rule R103). A claim that must hold of the source's reference as well takes
this as a premise. -/
abbrev ReferenceDefined (o : Outputs) : Prop :=
  o.es = false ∧ o.ee = false ∧ o.ef = false ∧ o.zs = false ∧ o.uf = false

/-- The bits of a vector its operation reads, `op` among them (rules R44, R46). -/
def readMask (v : OpVec) : OpVec :=
  match v.toNat / 2 ^ 40 with
  | 0 => 0x3FF00000000#42
  | 1 => 0x30000FFFFFF#42
  | _ => 0x3FFFF000000#42

/-- The canonical vector of the same operation: every field it does not read is 0 (rule R48). -/
def canonical (v : OpVec) : OpVec := v &&& readMask v

/-- The two inputs agree on `op` and on all that operation reads (rule R30). -/
abbrev SameRead (p q : Inputs) : Prop :=
  p.op = q.op ∧
    (p.op = some 0b00#2 → p.a = q.a) ∧
    (p.op = some 0b01#2 → p.ps = q.ps ∧ p.pe = q.pe ∧ p.pf = q.pf) ∧
    (p.op = some 0b10#2 ∨ p.op = some 0b11#2 → p.a = q.a ∧ p.b = q.b)

/-- The sign bit of a word as a number (rule R41). -/
def signOf (w : Word) : Nat := w.toNat / 128
/-- The biased exponent of a word (rule R41). -/
def expOf (w : Word) : Nat := w.toNat / 8 % 16
/-- The stored significand of a word (rule R41). -/
def sigOf (w : Word) : Nat := w.toNat % 8

/-- The common exponent of ADD, `E` (rule R72). -/
def commonExp (a b : Word) : Nat := max (expOf a) (expOf b)

/-- The sum of the aligned significands of ADD (rules R72, R75). -/
def alignedSum (a b : Word) : Nat :=
  sigOf a / 2 ^ (commonExp a b - expOf a) + sigOf b / 2 ^ (commonExp a b - expOf b)

/-- ADD without a loop: the word and the status, as numbers, by the aligned sum and the common exponent (rules R74 to
R80). -/
def addClosed (a b : Word) : Nat × Nat :=
  let n := alignedSum a b
  let e := commonExp a b
  let s := 128 * signOf a
  if n = 0 then (s + 8 * e, 16)
  else if 8 ≤ n then (if e = 15 then (0x78, 8) else (s + 8 * (e + 1) + n / 2, 0))
  else if 4 ≤ n then (s + 8 * e + n, 0)
  else if 2 ≤ n then (if e = 0 then (s + n, 32) else (s + 8 * (e - 1) + 2 * n, 0))
  else if e = 0 then (s + 1, 32)
  else if e = 1 then (s + 2, 32)
  else (s + 8 * (e - 2) + 4, 0)

/-- The table of rule R95: rows `fa`, columns `fb`; each entry is `rev_6(p)`, the normalised significand and the number
of right shifts. -/
def mulRow : Nat → List (Nat × Nat × Nat)
  | 0 => [(0,0,0), (0,0,0), (0,0,0), (0,0,0), (0,0,0), (0,0,0), (0,0,0), (0,0,0)]
  | 1 => [(0,0,0), (2,2,0), (4,4,0), (6,6,0), (8,4,1), (10,5,1), (12,6,1), (14,7,1)]
  | 2 => [(0,0,0), (4,4,0), (8,4,1), (12,6,1), (16,4,2), (20,5,2), (24,6,2), (28,7,2)]
  | 3 => [(0,0,0), (6,6,0), (12,6,1), (9,4,1), (24,6,2), (30,7,2), (18,4,2), (21,5,2)]
  | 4 => [(0,0,0), (8,4,1), (16,4,2), (24,6,2), (32,4,3), (40,5,3), (48,6,3), (56,7,3)]
  | 5 => [(0,0,0), (10,5,1), (20,5,2), (30,7,2), (40,5,3), (38,4,3), (60,7,3), (49,6,3)]
  | 6 => [(0,0,0), (12,6,1), (24,6,2), (18,4,2), (48,6,3), (60,7,3), (36,4,3), (42,5,3)]
  | 7 => [(0,0,0), (14,7,1), (28,7,2), (21,5,2), (56,7,3), (49,6,3), (42,5,3), (35,4,3)]
  | _ => []

/-- The entry of the table of rule R95 for two significands. -/
def mulEntry (fa fb : Nat) : Nat × Nat × Nat := (mulRow fa).getD fb (0, 0, 0)

/-- MUL by the table of rule R95: the word and the status as numbers (rules R88, R89, R94, R96). -/
def mulClosed (a b : Word) : Nat × Nat :=
  match mulEntry (sigOf a) (sigOf b) with
  | (_, f, k) =>
    if 15 < expOf a + expOf b + k then (0x78, 8)
    else (128 * ((signOf a + signOf b) % 2) + 8 * (expOf a + expOf b + k) + f, 0)

end Sys2Proof.Safety
end

