-- ==== Sys2Proof/Certificates/Slice0/Obligations.lean ====
section
/-!
DEFINITION. The statements for the provers. A statement that begins `∃ o, exec i s = .next { s with out := o } ∧ …`
says at once that the instruction COMPLETES in every state, what its outputs are, and its FRAME: the input ports, their
stability and the model's counter are as before (the block has no other state, rules R17 to R20, and no memory, R32).
-/

open Sys2Proof Sys2Proof.Machine Sys2Proof.Safety

/-! ### Encoding -/

/-- Vectors written out in 95_test_vectors.md section 2, and one with every ignored bit set (rule R48), decode to the
lines beside them. -/
def Obligations.SpecVectorsDecode : Prop :=
  decodeNumber 0x04200000000 = .ok (.unpack 0x42#8) ∧
    decodeNumber 0x10000010F07 = .ok (.pack 1#8 15#8 7#8) ∧
    decodeNumber 0x10000011008 = .ok (.pack 1#8 16#8 8#8) ∧
    decodeNumber 0x2BF3F000000 = .ok (.add 0xBF#8 0x3F#8) ∧
    decodeNumber 0x3219A000000 = .ok (.mul 0x21#8 0x9A#8) ∧
    decodeNumber 0x042FFFFFFFF = .ok (.unpack 0x42#8)

/-- Rule R45: bits 41 and 40 alone select the operation, by the codes of the table; the operands are the fields of rule
R44, each an eight-bit slice of the number. -/
def Obligations.SelectCodesDecode : Prop :=
  ∀ v : OpVec,
    let field := fun k : Nat => BitVec.ofNat 8 (v.toNat / 2 ^ k)
    (v.toNat / 2 ^ 40 = 0 → decode v = .unpack (field 32)) ∧
      (v.toNat / 2 ^ 40 = 1 → decode v = .pack (field 16) (field 8) (field 0)) ∧
      (v.toNat / 2 ^ 40 = 2 → decode v = .add (field 32) (field 24)) ∧
      (v.toNat / 2 ^ 40 = 3 → decode v = .mul (field 32) (field 24))

/-- Rule R51: the encoding of a line with literal operands, by the rule's four formulas, and its example. -/
def Obligations.LineEncodingFormulas : Prop :=
  (∀ (env : Results) (x y z : Nat), x < 256 → y < 256 → z < 256 →
    (∃ i, (Line.unpack (.lit x)).assemble env = .ok i ∧ (encode i).toNat = x <<< 32) ∧
      (∃ i, (Line.pack (.lit x) (.lit y) (.lit z)).assemble env = .ok i ∧
        (encode i).toNat = ((0b01 <<< 40 ||| x <<< 16) ||| y <<< 8) ||| z) ∧
      (∃ i, (Line.add (.lit x) (.lit y)).assemble env = .ok i ∧
        (encode i).toNat = (0b10 <<< 40 ||| x <<< 32) ||| y <<< 24) ∧
      (∃ i, (Line.mul (.lit x) (.lit y)).assemble env = .ok i ∧
        (encode i).toNat = (0b11 <<< 40 ||| x <<< 32) ||| y <<< 24)) ∧
    encode (.add 0x3F#8 0x3F#8) = 0x23F3F000000#42

/-- Decoding the encoding of any instruction gives it back, with every operand at every value; every instruction is
well-formed (rule R47). -/
def Obligations.DecodeOfEncode : Prop :=
  ∀ i : Instr, i.WellFormed = true ∧ decode (encode i) = i

/-- Disassembly followed by assembly gives the canonical vector, and a vector disassembles as its canonical one does
(rules R48, R55). -/
def Obligations.AssembleOfDisassemble : Prop :=
  ∀ (v : OpVec) (env : Results),
    (∃ i, (disassemble v).assemble env = .ok i ∧ encode i = canonical v) ∧
      disassemble (canonical v) = disassemble v

/-- Rule R48: a vector with unused fields that are not 0 gives the outputs of its canonical vector. -/
def Obligations.NoncanonicalSameOutputs : Prop :=
  ∀ (s : State) (v : OpVec), ∃ t t' : State,
    s.evaluate v = .next t ∧ s.evaluate (canonical v) = .next t' ∧ t.out = t'.out

/-- The model's choice (log entry 10), on top of rules R44, R47 and R49: a number is decoded exactly when it has at
most 42 bits, and is refused by name otherwise. -/
def Obligations.NumbersDecodedAreVectors : Prop :=
  ∀ n : Nat,
    ((∃ i, decodeNumber n = .ok i) ↔ n < 2 ^ 42) ∧
      (decodeNumber n = .error (.moreThan42Bits n) ↔ 2 ^ 42 ≤ n)

/-! ### Steps -/

/-- A step runs the decoded instruction: when the inputs give a vector, the step is the meaning of the instruction that
vector decodes to, with nothing around it (no program counter, rule R18). -/
def Obligations.StepRunsDecoded : Prop :=
  ∀ (s : State) (v : OpVec), s.fetch = some v → step s = exec (decode v) s

/-- Rule R44: with every port driven and the inputs stable, the vector of an evaluation is the rule's formula of the
six ports. -/
def Obligations.VectorOfPorts : Prop :=
  ∀ (s : State) (op : BitVec 2) (a b ps pe pf : Word), s.stable = true →
    s.inp = { op := some op, a := some a, b := some b, ps := some ps, pe := some pe, pf := some pf } →
    ∃ v, s.fetch = some v ∧
      v.toNat = ((((op.toNat <<< 40 ||| a.toNat <<< 32) ||| b.toNat <<< 24) ||| ps.toNat <<< 16)
        ||| pe.toNat <<< 8) ||| pf.toNat

/-- Once `op` and the inputs the operation reads are driven and stable, the step is that operation on those inputs,
whatever the ignored ports hold and whether or not they are driven (rules R30, R46, R115). -/
def Obligations.IgnoredPortsMayBeUndriven : Prop :=
  (∀ (s : State) (a : Word), s.stable = true → s.inp.op = some 0b00#2 → s.inp.a = some a →
    step s = exec (.unpack a) s) ∧
  (∀ (s : State) (ps pe pf : Word), s.stable = true → s.inp.op = some 0b01#2 → s.inp.ps = some ps →
    s.inp.pe = some pe → s.inp.pf = some pf → step s = exec (.pack ps pe pf) s) ∧
  (∀ (s : State) (a b : Word), s.stable = true → s.inp.op = some 0b10#2 → s.inp.a = some a →
    s.inp.b = some b → step s = exec (.add a b) s) ∧
  (∀ (s : State) (a b : Word), s.stable = true → s.inp.op = some 0b11#2 → s.inp.a = some a →
    s.inp.b = some b → step s = exec (.mul a b) s)

/-- Sampling too early, or with `op` or a read input undriven, completes all the same; the outputs are the next free
value, whatever it is, and nothing else changes but the model's count of them (rules R113, R115, R117; the form of the
free value is the model's, log entry 5). -/
def Obligations.UnsettledSampleIsFree : Prop :=
  ∀ s : State,
    (s.stable = false ∨ s.inp.op = none ∨
      (s.inp.op = some 0b00#2 ∧ s.inp.a = none) ∨
      (s.inp.op = some 0b01#2 ∧ (s.inp.ps = none ∨ s.inp.pe = none ∨ s.inp.pf = none)) ∨
      ((s.inp.op = some 0b10#2 ∨ s.inp.op = some 0b11#2) ∧ (s.inp.a = none ∨ s.inp.b = none))) →
    step s = .next { s with out := Outputs.free s.draws, draws := s.draws + 1 }

/-- Rule R100: every operation ends in a next state on every input, driving its outputs and changing nothing else; and
so does every step. -/
def Obligations.NothingTraps : Prop :=
  (∀ (i : Instr) (s : State), ∃ o, exec i s = .next { s with out := o }) ∧
    ∀ s : State, ∃ t, step s = .next t

/-- The frame of a step: the block does nothing to the input ports (rule R120), and sampling changes nothing the caller
drives (rule R36). The clause on `draws` is the model's choice, on which neither rule speaks: the counter of free values
is the model's own field, raised by one by a step that draws one and by no other (log entry 5). -/
def Obligations.StepFrame : Prop :=
  ∀ s t : State, step s = .next t →
    t.inp = s.inp ∧ t.stable = s.stable ∧ t.draws = s.draws + (if s.ready = true then 0 else 1)

/-- The same inputs give the same outputs every time: a second sample of settled inputs changes nothing (rule R36). -/
def Obligations.StepIdempotent : Prop :=
  ∀ s t : State, s.ready = true → step s = .next t → step t = .next t

/-- Rule R30: every output is a function of `op` and of the inputs that operation reads. Two settled states that agree
on these give the same outputs, whatever else differs: the ignored ports, the outputs sampled before (rules R17, R28).
-/
def Obligations.OutputsDependOnReadInputs : Prop :=
  ∀ s s' : State, s.ready = true → s'.stable = true → SameRead s.inp s'.inp →
    ∃ t t', step s = .next t ∧ step s' = .next t' ∧ t.out = t'.out

/-- An evaluation, from driving a vector to sampling, gives what the operation of that vector gives, whatever came
before it (rules R113, R120, R121). -/
def Obligations.EvaluateAnyHistory : Prop :=
  ∀ (s : State) (v : OpVec),
    s.evaluate v = exec (decode v) { s with inp := Inputs.ofVector v, stable := true }

/-- Driving the inputs anew leaves them stable exactly when they were, `op` is driven, and nothing the operation reads
has changed (rule R117; that the model clears the flag otherwise is log entry 4). -/
def Obligations.DriveKeepsStability : Prop :=
  ∀ (s : State) (p : Inputs),
    (s.drive p).stable = true ↔ s.stable = true ∧ p.op ≠ none ∧ SameRead p s.inp

/-- An opcode-table word placed on the inputs is what the very next step runs (log entry 7). -/
def Obligations.PlacedWordRuns : Prop :=
  ∀ (s : State) (nbits w : Nat) (i : Instr), decodeTableWord nbits w = some i →
    step (s.withFetchWord nbits w) = exec i (s.withFetchWord nbits w)

/-- Power-up as the model has it, all of it the model's choice: no input is driven and nothing is stable (log entry 6),
and the model's own counter of free values is 0 (log entry 5). The spec has no reset and no reset value (rule R112). -/
def Obligations.ResetDrivesNothing : Prop :=
  State.reset.inp = { op := none, a := none, b := none, ps := none, pe := none, pf := none } ∧
    State.reset.stable = false ∧ State.reset.draws = 0 ∧ State.reset.ready = false

/-! ### Words, fields, status -/

/-- Rule R12: bit `k` of `rev_n(x)` is bit `n-1-k` of `x`, and `rev_n(x)` has `n` bits, for every width. -/
def Obligations.RevReversesBits : Prop :=
  ∀ n x : Nat, x < 2 ^ n →
    rev n x < 2 ^ n ∧ ∀ k, k < n → (rev n x).testBit k = x.testBit (n - 1 - k)

/-- Rule R42: field extraction takes bit 7, bits 6 to 3 and bits 2 to 0. -/
def Obligations.UnpackTakesFields : Prop :=
  ∀ w : Word,
    (unpack w).s = w.toNat >>> 7 ∧ (unpack w).s = (w.extractLsb' 7 1).toNat ∧
      (unpack w).e = (w.toNat &&& 0b01111000) >>> 3 ∧ (unpack w).e = (w.extractLsb' 3 4).toNat ∧
      (unpack w).f = w.toNat &&& 0b00000111 ∧ (unpack w).f = (w.extractLsb' 0 3).toNat

/-- Rule R43: composition cuts each field to its width, for any natural numbers; in range it is the source's formula,
and a bit above a field's width never reaches the word. -/
def Obligations.PackWordCutsFields : Prop :=
  ∀ s e f : Nat,
    (packWord s e f).toNat = s % 2 * 128 + e % 16 * 8 + f % 8 ∧
      (s ≤ 1 → e ≤ 15 → f ≤ 7 → (packWord s e f).toNat = (s <<< 7 ||| e <<< 3) ||| f) ∧
      packWord s e f = packWord (s % 2) (e % 16) (f % 8)

/-- Rule R25: for every operation the outputs `ys`, `ye`, `yf` are the fields of `y`. -/
def Obligations.OutputFieldsOfY : Prop :=
  ∀ (i : Instr) (s : State), ∃ o, exec i s = .next { s with out := o } ∧
    o.ys = o.y.extractLsb' 7 1 ∧ o.ye = o.y.extractLsb' 3 4 ∧ o.yf = o.y.extractLsb' 0 3 ∧
    o.ys.toNat = (unpack o.y).s ∧ o.ye.toNat = (unpack o.y).e ∧ o.yf.toNat = (unpack o.y).f

/-- Which operations can set which status bits (rules R27, R104): UNPACK none; PACK only ES, EE, EF, in any
combination; ADD only SAT, ZS, UF, at most one of them; MUL only SAT. -/
def Obligations.StatusBitsByOperation : Prop :=
  (∀ (s : State) (a : Word), ∃ o, exec (.unpack a) s = .next { s with out := o } ∧ o.st = 0) ∧
  (∀ (s : State) (ps pe pf : Word), ∃ o, exec (.pack ps pe pf) s = .next { s with out := o } ∧
    o.sat = false ∧ o.zs = false ∧ o.uf = false) ∧
  (∀ (s : State) (x y z : Bool), ∃ ps pe pf o, exec (.pack ps pe pf) s = .next { s with out := o } ∧
    o.es = x ∧ o.ee = y ∧ o.ef = z) ∧
  (∀ (s : State) (a b : Word), ∃ o, exec (.add a b) s = .next { s with out := o } ∧
    o.es = false ∧ o.ee = false ∧ o.ef = false ∧ StatusLegal o) ∧
  (∀ (s : State) (a b : Word), ∃ o, exec (.mul a b) s = .next { s with out := o } ∧
    o.es = false ∧ o.ee = false ∧ o.ef = false ∧ o.zs = false ∧ o.uf = false)

/-! ### UNPACK and PACK -/

/-- Rule R56: UNPACK completes in every state; `y` is the word itself, the fields are its fields, every status bit is
0; its canonical vector is `a << 32`. -/
def Obligations.UnpackResult : Prop :=
  ∀ (s : State) (a : Word),
    (∃ o, exec (.unpack a) s = .next { s with out := o } ∧
      o.y = a ∧ o.ys.toNat = a.toNat >>> 7 ∧ o.ye.toNat = (a.toNat &&& 0b01111000) >>> 3 ∧
      o.yf.toNat = a.toNat &&& 0b00000111 ∧ o.st = 0) ∧
    (encode (.unpack a)).toNat = a.toNat <<< 32 ∧ decode (encode (.unpack a)) = .unpack a

/-- Rule R58: PACK of the fields UNPACK gives for a word gives the word back, with status 0. -/
def Obligations.PackOfUnpack : Prop :=
  ∀ (s : State) (w : Word), ∃ o o' : Outputs,
    exec (.unpack w) s = .next { s with out := o } ∧
      exec (.pack (o.ys.setWidth 8) (o.ye.setWidth 8) (o.yf.setWidth 8)) { s with out := o }
        = .next { s with out := o' } ∧
      o'.y = w ∧ o'.st = 0

/-- Rule R59: UNPACK of the word PACK makes of fields in range gives these fields back. -/
def Obligations.UnpackOfPack : Prop :=
  ∀ (s : State) (ps pe pf : Word), FieldsFit ps.toNat pe.toNat pf.toNat → ∃ o o' : Outputs,
    exec (.pack ps pe pf) s = .next { s with out := o } ∧
      exec (.unpack o.y) { s with out := o } = .next { s with out := o' } ∧
      o'.ys.toNat = ps.toNat ∧ o'.ye.toNat = pe.toNat ∧ o'.yf.toNat = pf.toNat

/-- Rule R61: PACK completes in every state, in range or not; the word, its fields, the six status bits as the rule's
pseudocode computes them, and the canonical vector. -/
def Obligations.PackResult : Prop :=
  ∀ (s : State) (ps pe pf : Word),
    (∃ o, exec (.pack ps pe pf) s = .next { s with out := o } ∧
      o.y.toNat = ps.toNat % 2 * 128 + pe.toNat % 16 * 8 + pf.toNat % 8 ∧ Coherent o ∧
      o.st.toNat = (if ps.toNat > 0b1 then 1 else 0) + (if pe.toNat > 0b1111 then 2 else 0)
        + (if pf.toNat > 0b111 then 4 else 0)) ∧
    (encode (.pack ps pe pf)).toNat
        = ((0b01 <<< 40 ||| ps.toNat <<< 16) ||| pe.toNat <<< 8) ||| pf.toNat ∧
    decode (encode (.pack ps pe pf)) = .pack ps pe pf

/-- Rule R63: a field is out of range exactly when it has a bit outside its mask, which is the same as exceeding it,
and the status bit of its name says so. -/
def Obligations.PackValidationMasks : Prop :=
  ∀ (s : State) (ps pe pf : Word), ∃ o, exec (.pack ps pe pf) s = .next { s with out := o } ∧
    (o.es = true ↔ ps &&& ~~~0b1#8 ≠ 0) ∧ (o.es = true ↔ ps.toNat > 1) ∧
    (o.ee = true ↔ pe &&& ~~~0b1111#8 ≠ 0) ∧ (o.ee = true ↔ pe.toNat > 15) ∧
    (o.ef = true ↔ pf &&& ~~~0b111#8 ≠ 0) ∧ (o.ef = true ↔ pf.toNat > 7)

/-- Rule R65: bit by bit, `y[7] = ps[0]`, `y[6:3] = pe[3:0]`, `y[2:0] = pf[2:0]`; so bits above a field's width are
discarded and reach no other field. -/
def Obligations.PackNoSpill : Prop :=
  ∀ (s : State) (ps pe pf : Word), ∃ o, exec (.pack ps pe pf) s = .next { s with out := o } ∧
    o.y.getLsbD 7 = ps.getLsbD 0 ∧
    (∀ k, k < 4 → o.y.getLsbD (3 + k) = pe.getLsbD k) ∧
    (∀ k, k < 3 → o.y.getLsbD k = pf.getLsbD k)

/-- Rule R66, which the spec marks as derived from R61 and R63: with every field in range PACK gives status 0 and
gives the fields back. -/
def Obligations.PackInRange : Prop :=
  ∀ (s : State) (ps pe pf : Word), ps.toNat ≤ 1 → pe.toNat ≤ 15 → pf.toNat ≤ 7 →
    ∃ o, exec (.pack ps pe pf) s = .next { s with out := o } ∧ o.st = 0 ∧
      o.y = ps.extractLsb' 0 1 ++ pe.extractLsb' 0 4 ++ pf.extractLsb' 0 3 ∧
      o.ys.toNat = ps.toNat ∧ o.ye.toNat = pe.toNat ∧ o.yf.toNat = pf.toNat

/-- Rule R67, which the spec marks as derived from R61 and R25: the unpacked outputs of PACK are the inputs' low bits,
and differ from an input that is out of range; the rule's example. -/
def Obligations.PackFieldsAreLowBits : Prop :=
  (∀ (s : State) (ps pe pf : Word), ∃ o, exec (.pack ps pe pf) s = .next { s with out := o } ∧
    o.ys = ps.extractLsb' 0 1 ∧ o.ye = pe.extractLsb' 0 4 ∧ o.yf = pf.extractLsb' 0 3 ∧
    (1 < ps.toNat → o.ys.toNat ≠ ps.toNat) ∧ (15 < pe.toNat → o.ye.toNat ≠ pe.toNat) ∧
    (7 < pf.toNat → o.yf.toNat ≠ pf.toNat)) ∧
  ∀ s : State, exec (.pack 0#8 16#8 9#8) s =
    .next { s with out := { y := 0x01#8, ys := 0#1, ye := 0#4, yf := 1#3, st := 0b000110#6 } }

/-! ### ADD -/

/-- ADD without a loop: it completes in every state, and word and status are the closed form by aligned sum and common
exponent (rules R70 to R83). -/
def Obligations.AddClosedForm : Prop :=
  ∀ (s : State) (a b : Word), ∃ o, exec (.add a b) s = .next { s with out := o } ∧
    (o.y.toNat, o.st.toNat) = addClosed a b ∧ Coherent o

/-- Rule R72: alignment. The significand with the smaller exponent is shifted right by the difference, to 0 where the
difference is 3 or more; the common exponent is the larger; equal exponents shift nothing. -/
def Obligations.AddAlignment : Prop :=
  ∀ a b : Word,
    (expOf a < expOf b →
      align (unpack a) (unpack b) = (sigOf a >>> (expOf b - expOf a), sigOf b, expOf b)) ∧
    (expOf b < expOf a →
      align (unpack a) (unpack b) = (sigOf a, sigOf b >>> (expOf a - expOf b), expOf a)) ∧
    (expOf a = expOf b → align (unpack a) (unpack b) = (sigOf a, sigOf b, expOf a)) ∧
    (align (unpack a) (unpack b)).2.2 = max (expOf a) (expOf b) ∧
    (3 ≤ expOf b - expOf a → (align (unpack a) (unpack b)).1 = 0) ∧
    (3 ≤ expOf a - expOf b → (align (unpack a) (unpack b)).2.1 = 0) ∧
    max (expOf a) (expOf b) - min (expOf a) (expOf b) ≤ 15

/-- Rule R74: the sign of the working value is the sign of `a`, and of the result too unless it saturates; flipping the
sign of `b` changes nothing. -/
def Obligations.AddSignOfFirst : Prop :=
  ∀ (s : State) (a b : Word),
    (addSum a b).s = signOf a ∧
    (∃ o, exec (.add a b) s = .next { s with out := o } ∧ (o.sat = false → o.y.getLsbD 7 = a.getLsbD 7)) ∧
    exec (.add a (b ^^^ 0x80#8)) s = exec (.add a b) s

/-- Rule R78: ZS is set exactly when both aligned significands are 0; the significand stays 0 and the exponent stays
`E`. -/
def Obligations.AddZeroSum : Prop :=
  ∀ (s : State) (a b : Word), ∃ o, exec (.add a b) s = .next { s with out := o } ∧
    (o.zs = true ↔ (align (unpack a) (unpack b)).1 = 0 ∧ (align (unpack a) (unpack b)).2.1 = 0) ∧
    (o.zs = true → o.yf.toNat = 0 ∧ o.ye.toNat = commonExp a b ∧ o.ys.toNat = signOf a ∧
      normaliseLeft (normaliseRight (addSum a b)) = { normaliseRight (addSum a b) with zs := true })

/-- Rule R79, whose sentence "This happens exactly when …" the spec marks as derived: UF is set exactly when the
aligned sum is 1, 2 or 3 and `E = 0`, or it is 1 and `E = 1`; the exponent is then 0 and the significand keeps the
value it has there. -/
def Obligations.AddExponentClamp : Prop :=
  ∀ (s : State) (a b : Word), ∃ o, exec (.add a b) s = .next { s with out := o } ∧
    (o.uf = true ↔ (1 ≤ alignedSum a b ∧ alignedSum a b ≤ 3) ∧
      (commonExp a b = 0 ∨ (commonExp a b = 1 ∧ alignedSum a b = 1))) ∧
    (o.uf = true → o.ye.toNat = 0 ∧ o.ys.toNat = signOf a ∧
      o.yf.toNat = (if commonExp a b = 0 then alignedSum a b else 2))

/-- Rule R80, whose sentence "In ADD this happens exactly when …" the spec marks as derived: SAT is set exactly when
the exponent after step 5 exceeds 15, which is exactly when `E = 15` and the aligned sum is 8 or more; the word is
then `0x78`, whatever the sign of `a`. -/
def Obligations.AddSaturation : Prop :=
  ∀ (s : State) (a b : Word), ∃ o, exec (.add a b) s = .next { s with out := o } ∧
    (o.sat = true ↔ 15 < (addNormalised a b).e) ∧
    (o.sat = true ↔ commonExp a b = 15 ∧ 8 ≤ alignedSum a b) ∧
    (o.sat = true → o.y = 0x78#8 ∧ o.ys = 0 ∧ o.ye = 0b1111#4 ∧ o.yf = 0)

/-- The rounding branch is never taken in ADD (rule R82, which the spec marks as derived): the significand is below 8
after step 5 and after step 6, and the rounding step changes nothing. -/
def Obligations.AddNeverRounds : Prop :=
  ∀ a b : Word, (addNormalised a b).f < 8 ∧ (saturate (addNormalised a b)).f &&& 8 = 0 ∧
    roundStep (saturate (addNormalised a b)) = saturate (addNormalised a b)

/-- Rule R84, which the spec marks as derived from R72, R74, R75 and R80: swapping the operands changes nothing but
bit 7 of `y`, which is the sign of the first operand unless SAT is set, when both orders give `0x78`; so ADD commutes
exactly when the signs agree or the result saturates. -/
def Obligations.AddOperandOrder : Prop :=
  ∀ (s : State) (a b : Word), ∃ o o' : Outputs,
    exec (.add a b) s = .next { s with out := o } ∧ exec (.add b a) s = .next { s with out := o' } ∧
    o.st = o'.st ∧ o.y.extractLsb' 0 7 = o'.y.extractLsb' 0 7 ∧
    (o.sat = false → o.y.getLsbD 7 = a.getLsbD 7 ∧ o'.y.getLsbD 7 = b.getLsbD 7) ∧
    (o.sat = true → o.y = 0x78#8 ∧ o'.y = 0x78#8) ∧
    (o = o' ↔ a.getLsbD 7 = b.getLsbD 7 ∨ o.sat = true)

/-- Bounds of ADD's internal values and of the significand it composes, by status (rule R85, which the spec marks as
derived). -/
def Obligations.AddBounds : Prop :=
  ∀ (s : State) (a b : Word), (addSum a b).f ≤ 14 ∧ (addNormalised a b).e ≤ 16 ∧
    ∃ o, exec (.add a b) s = .next { s with out := o } ∧ StatusLegal o ∧
      (o.st = 0 → 4 ≤ o.yf.toNat) ∧ (o.sat = true ∨ o.zs = true → o.yf.toNat = 0) ∧
      (o.uf = true → 1 ≤ o.yf.toNat ∧ o.yf.toNat ≤ 3)

/-! ### MUL -/

/-- Rule R91, whose sentence "The sum equals the integer product" the spec marks as derived: the long multiplication
adds `1 << (i + j)` for every pair of set bits; the sum is the integer product and is at most 49. -/
def Obligations.LongMultiplication : Prop :=
  ∀ ra rb : Nat, ra < 8 → rb < 8 →
    longMul ra rb = (∑ i ∈ Finset.range 3, ∑ j ∈ Finset.range 3,
      if ra.testBit i = true ∧ rb.testBit j = true then 1 <<< (i + j) else 0) ∧
    longMul ra rb = ra * rb ∧ longMul ra rb ≤ 49

/-- Rule R95, which the spec marks as derived from R90 to R93: the significand path of all 64 pairs is the rule's
table, at every sign and exponent; the normalised significand is one of 0, 2, 4, 5, 6, 7, is 0 exactly when an
operand's is, and is 2 exactly when both are 1. -/
def Obligations.MulSignificandTable : Prop :=
  ∀ fa fb : Nat, fa < 8 → fb < 8 →
    (mulEntry fa fb).1 = mulSignificand fa fb ∧
    (∀ s e : Nat, normaliseRight { s := s, e := e, f := mulSignificand fa fb }
      = { s := s, e := e + (mulEntry fa fb).2.2, f := (mulEntry fa fb).2.1 }) ∧
    (mulEntry fa fb).2.1 ∈ [0, 2, 4, 5, 6, 7] ∧
    ((mulEntry fa fb).2.1 = 0 ↔ fa = 0 ∨ fb = 0) ∧
    ((mulEntry fa fb).2.1 = 2 ↔ fa = 1 ∧ fb = 1)

/-- MUL by the table of rule R95: it completes in every state, and word and status are the closed form (rules R86 to
R98). -/
def Obligations.MulClosedForm : Prop :=
  ∀ (s : State) (a b : Word), ∃ o, exec (.mul a b) s = .next { s with out := o } ∧
    (o.y.toNat, o.st.toNat) = mulClosed a b ∧ Coherent o

/-- Rule R88: the sign of the working value is the XOR of the operands' signs, and of the result too unless it
saturates. -/
def Obligations.MulSignXor : Prop :=
  ∀ (s : State) (a b : Word), (mulProduct a b).s = signOf a ^^^ signOf b ∧
    ∃ o, exec (.mul a b) s = .next { s with out := o } ∧
      (o.sat = false → o.y.getLsbD 7 = (a.getLsbD 7 ^^ b.getLsbD 7))

/-- Rule R96: SAT is set exactly when the exponent after step 4 exceeds 15, which is `ea + eb + k > 15` with `k` from
the table of rule R95; the word is then `0x78`. -/
def Obligations.MulSaturation : Prop :=
  ∀ (s : State) (a b : Word), ∃ o, exec (.mul a b) s = .next { s with out := o } ∧
    (o.sat = true ↔ 15 < (mulNormalised a b).e) ∧
    (o.sat = true ↔ expOf a + expOf b + (mulEntry (sigOf a) (sigOf b)).2.2 > 15) ∧
    (o.sat = true → o.y = 0x78#8 ∧ o.ys = 0 ∧ o.ye = 0b1111#4 ∧ o.yf = 0)

/-- MUL has no left normalisation: a zero significand stays 0 and the exponent is the sum, and ZS and UF are never set
(rule R94). -/
def Obligations.MulKeepsSmallSignificands : Prop :=
  ∀ (s : State) (a b : Word), ∃ o, exec (.mul a b) s = .next { s with out := o } ∧
    o.zs = false ∧ o.uf = false ∧
    (mulSignificand (sigOf a) (sigOf b) < 8 → mulNormalised a b = mulProduct a b) ∧
    (sigOf a = 0 ∨ sigOf b = 0 → expOf a + expOf b ≤ 15 →
      o.yf.toNat = 0 ∧ o.ye.toNat = expOf a + expOf b ∧ o.sat = false)

/-- The rounding branch is never taken in MUL (rule R97). -/
def Obligations.MulNeverRounds : Prop :=
  ∀ a b : Word, (mulNormalised a b).f < 8 ∧ (saturate (mulNormalised a b)).f &&& 8 = 0 ∧
    roundStep (saturate (mulNormalised a b)) = saturate (mulNormalised a b)

/-- MUL commutes, and its internal values keep the bounds of rule R99, which the spec marks as derived. -/
def Obligations.MulCommutes : Prop :=
  ∀ (s : State) (a b : Word),
    (∃ o, exec (.mul a b) s = .next { s with out := o } ∧ exec (.mul b a) s = .next { s with out := o }) ∧
    mulSignificand (sigOf a) (sigOf b) ≤ 60 ∧ (mulNormalised a b).e ≤ 33

/-- What right normalisation does, from any working value: it halves the significand `k` times and adds `k` to the
exponent, with the least `k` that brings the significand below 8 (rules R76, R93). -/
def Obligations.NormaliseRightLeastShift : Prop :=
  ∀ w : Working, ∃ k, normaliseRight w = { w with f := w.f / 2 ^ k, e := w.e + k } ∧
    w.f / 2 ^ k < 8 ∧ ∀ j, j < k → 8 ≤ w.f / 2 ^ j

/-! ### The machine's invariant -/

/-- Every step keeps the invariant: the outputs last sampled are consistent (rules R25, R78, R79, R80, R104), or they are
one of the free values drawn so far. That rules R113, R115 and R117 allow any value is the spec's; the FORM of the second
disjunct (`Outputs.free` of a number below the counter `draws`) is the model's choice, log entry 5. -/
def Obligations.StepKeepsOutputInv : Prop :=
  ∀ s t : State, OutputInv s → step s = .next t → OutputInv t

/-- The invariant, whose second disjunct has the model's own form (log entry 5), holds at power-up by its first one: the
outputs recorded there are the model's choice too (log entry 6). -/
def Obligations.ResetOutputInv : Prop := OutputInv State.reset
end

