-- ==== Sys2Proof/Laws/State.lean ====
section
/-!
SUPPORT. What each update of the state leaves in each field, so that no later proof unfolds a record update.
-/

namespace Sys2Proof.Machine

@[simp] theorem State.sample_inp (s : State) (o : Outputs) : (s.sample o).inp = s.inp := rfl
@[simp] theorem State.sample_stable (s : State) (o : Outputs) : (s.sample o).stable = s.stable := rfl
@[simp] theorem State.sample_out (s : State) (o : Outputs) : (s.sample o).out = o := rfl
@[simp] theorem State.sample_draws (s : State) (o : Outputs) : (s.sample o).draws = s.draws := rfl

@[simp] theorem State.sampleAny_inp (s : State) : s.sampleAny.inp = s.inp := rfl
@[simp] theorem State.sampleAny_stable (s : State) : s.sampleAny.stable = s.stable := rfl
@[simp] theorem State.sampleAny_out (s : State) : s.sampleAny.out = Outputs.free s.draws := rfl
@[simp] theorem State.sampleAny_draws (s : State) : s.sampleAny.draws = s.draws + 1 := rfl

@[simp] theorem State.withFetchWord_inp (s : State) (n w : Nat) :
    (s.withFetchWord n w).inp = Inputs.ofVector (BitVec.ofNat 42 (w % 2 ^ n)) := rfl
@[simp] theorem State.withFetchWord_stable (s : State) (n w : Nat) : (s.withFetchWord n w).stable = true := rfl
@[simp] theorem State.withFetchWord_out (s : State) (n w : Nat) : (s.withFetchWord n w).out = s.out := rfl
@[simp] theorem State.withFetchWord_draws (s : State) (n w : Nat) : (s.withFetchWord n w).draws = s.draws := rfl

@[simp] theorem State.drive_inp (s : State) (p : Inputs) : (s.drive p).inp = p := rfl
@[simp] theorem State.drive_stable (s : State) (p : Inputs) :
    (s.drive p).stable = (s.stable && p.sameRead s.inp) := rfl
@[simp] theorem State.drive_out (s : State) (p : Inputs) : (s.drive p).out = s.out := rfl
@[simp] theorem State.drive_draws (s : State) (p : Inputs) : (s.drive p).draws = s.draws := rfl

@[simp] theorem State.settle_inp (s : State) : s.settle.inp = s.inp := rfl
@[simp] theorem State.settle_stable (s : State) : s.settle.stable = true := rfl
@[simp] theorem State.settle_out (s : State) : s.settle.out = s.out := rfl
@[simp] theorem State.settle_draws (s : State) : s.settle.draws = s.draws := rfl

/-- Readiness looks at the input ports and their stability only, so a sample leaves it. -/
@[simp] theorem State.sample_ready (s : State) (o : Outputs) : (s.sample o).ready = s.ready := rfl
@[simp] theorem State.sampleAny_ready (s : State) : s.sampleAny.ready = s.ready := rfl

/-- The vector read off the ports looks at the input ports only, so a sample leaves it. -/
@[simp] theorem State.sample_fetch (s : State) (o : Outputs) : (s.sample o).fetch = s.fetch := rfl
@[simp] theorem State.sampleAny_fetch (s : State) : s.sampleAny.fetch = s.fetch := rfl

/-- A later sample replaces an earlier one: no output accumulates (rule R28). -/
@[simp] theorem State.sample_sample (s : State) (o o' : Outputs) : (s.sample o).sample o' = s.sample o' := rfl

end Sys2Proof.Machine
end

