-- ==== Sys2Proof/Laws/Ops.lean ====
section
/-!
SUPPORT. One lemma per shared operation that says everything it can do: the ports, the operands and the status word.
-/

namespace Sys2Proof.Machine

/-- Readiness is the caller's two duties (rules R115, R117). -/
theorem State.ready_iff (s : State) : s.ready = true ↔ s.stable = true ∧ s.inp.driven = true := by
  simp [State.ready]

/-- The vector is there exactly when the caller has met its duties, and then it is the ports'. -/
theorem State.fetch_of_ready {s : State} (h : s.ready = true) : s.fetch = some s.inp.vector := by
  simp [State.fetch, h]

theorem State.fetch_of_not_ready {s : State} (h : s.ready = false) : s.fetch = none := by
  simp [State.fetch, h]

/-- Everything `exec` can do: sample some outputs, which do not depend on the state. -/
theorem exec_samples (i : Instr) : ∃ o : Outputs, ∀ s : State, exec i s = .next (s.sample o) := by
  cases i with
  | unpack a => exact ⟨unpackOutputs a, fun _ => rfl⟩
  | pack ps pe pf => exact ⟨packOutputs ps pe pf, fun _ => rfl⟩
  | add a b => exact ⟨addOutputs a b, fun _ => rfl⟩
  | mul a b => exact ⟨mulOutputs a b, fun _ => rfl⟩

/-- The word a bundle was made of. -/
@[simp] theorem Outputs.ofResult_y (y : Word) (c : Status) : (Outputs.ofResult y c).y = y := rfl
@[simp] theorem Outputs.ofResult_st (y : Word) (c : Status) : (Outputs.ofResult y c).st = c.word := rfl

theorem Outputs.ofResult_ys (y : Word) (c : Status) :
    (Outputs.ofResult y c).ys.toNat = y.toNat / 128 := by
  have := y.isLt
  simp only [Outputs.ofResult, BitVec.extractLsb'_toNat, Nat.shiftRight_eq_div_pow]
  omega

theorem Outputs.ofResult_ye (y : Word) (c : Status) :
    (Outputs.ofResult y c).ye.toNat = y.toNat / 8 % 16 := by
  simp only [Outputs.ofResult, BitVec.extractLsb'_toNat, Nat.shiftRight_eq_div_pow]

theorem Outputs.ofResult_yf (y : Word) (c : Status) :
    (Outputs.ofResult y c).yf.toNat = y.toNat % 8 := by
  simp only [Outputs.ofResult, BitVec.extractLsb'_toNat, Nat.shiftRight_eq_div_pow]
  omega

/-- The status word as a number: bit `k` weighs `2^k` (rules R26, R27). -/
theorem Status.word_toNat (c : Status) :
    c.word.toNat = c.es.toNat + 2 * c.ee.toNat + 4 * c.ef.toNat + 8 * c.sat.toNat + 16 * c.zs.toNat
      + 32 * c.uf.toNat := by
  obtain ⟨es, ee, ef, sat, zs, uf⟩ := c
  revert es ee ef sat zs uf
  decide

/-- Each accessor reads back the condition of its name (rule R27). -/
@[simp] theorem Outputs.ofResult_es (y : Word) (c : Status) : (Outputs.ofResult y c).es = c.es := by
  obtain ⟨es, ee, ef, sat, zs, uf⟩ := c
  revert es ee ef sat zs uf
  simp only [Outputs.es, Outputs.ofResult_st]
  decide

@[simp] theorem Outputs.ofResult_ee (y : Word) (c : Status) : (Outputs.ofResult y c).ee = c.ee := by
  obtain ⟨es, ee, ef, sat, zs, uf⟩ := c
  revert es ee ef sat zs uf
  simp only [Outputs.ee, Outputs.ofResult_st]
  decide

@[simp] theorem Outputs.ofResult_ef (y : Word) (c : Status) : (Outputs.ofResult y c).ef = c.ef := by
  obtain ⟨es, ee, ef, sat, zs, uf⟩ := c
  revert es ee ef sat zs uf
  simp only [Outputs.ef, Outputs.ofResult_st]
  decide

@[simp] theorem Outputs.ofResult_sat (y : Word) (c : Status) : (Outputs.ofResult y c).sat = c.sat := by
  obtain ⟨es, ee, ef, sat, zs, uf⟩ := c
  revert es ee ef sat zs uf
  simp only [Outputs.sat, Outputs.ofResult_st]
  decide

@[simp] theorem Outputs.ofResult_zs (y : Word) (c : Status) : (Outputs.ofResult y c).zs = c.zs := by
  obtain ⟨es, ee, ef, sat, zs, uf⟩ := c
  revert es ee ef sat zs uf
  simp only [Outputs.zs, Outputs.ofResult_st]
  decide

@[simp] theorem Outputs.ofResult_uf (y : Word) (c : Status) : (Outputs.ofResult y c).uf = c.uf := by
  obtain ⟨es, ee, ef, sat, zs, uf⟩ := c
  revert es ee ef sat zs uf
  simp only [Outputs.uf, Outputs.ofResult_st]
  decide

/-- PACK's validation with the masks of rule R62 in numbers (rules R61, R63). -/
@[simp] theorem validate_es (ps pe pf : Word) : (validate ps pe pf).es = decide (1 < ps.toNat) := rfl
@[simp] theorem validate_ee (ps pe pf : Word) : (validate ps pe pf).ee = decide (15 < pe.toNat) := rfl
@[simp] theorem validate_ef (ps pe pf : Word) : (validate ps pe pf).ef = decide (7 < pf.toNat) := rfl
@[simp] theorem validate_sat (ps pe pf : Word) : (validate ps pe pf).sat = false := rfl
@[simp] theorem validate_zs (ps pe pf : Word) : (validate ps pe pf).zs = false := rfl
@[simp] theorem validate_uf (ps pe pf : Word) : (validate ps pe pf).uf = false := rfl

/-- Field extraction as quotients and remainders (rules R11, R42). -/
@[simp] theorem unpack_s (w : Word) : (unpack w).s = w.toNat / 128 := by
  simp [unpack, Nat.shiftRight_eq_div_pow]

@[simp] theorem unpack_e (w : Word) : (unpack w).e = w.toNat / 8 % 16 := by
  revert w
  decide +kernel

@[simp] theorem unpack_f (w : Word) : (unpack w).f = w.toNat % 8 := by
  simpa [unpack] using Nat.and_two_pow_sub_one_eq_mod w.toNat 3

/-- Word composition as a number: each field is taken modulo its width and weighs what its place weighs (rules R43,
R65). -/
theorem packWord_toNat (s e f : Nat) :
    (packWord s e f).toNat = s % 2 * 128 + e % 16 * 8 + f % 8 := by
  have hs : s &&& 0b1 = s % 2 := Nat.and_two_pow_sub_one_eq_mod s 1
  have he : e &&& 0b1111 = e % 16 := Nat.and_two_pow_sub_one_eq_mod e 4
  have hf : f &&& 0b111 = f % 8 := Nat.and_two_pow_sub_one_eq_mod f 3
  have key : ∀ x < 2, ∀ y < 16, ∀ z < 8,
      (BitVec.ofNat 8 ((x <<< 7) ||| (y <<< 3) ||| z)).toNat = x * 128 + y * 8 + z := by decide +kernel
  rw [packWord, hs, he, hf]
  exact key _ (Nat.mod_lt _ (by decide)) _ (Nat.mod_lt _ (by decide)) _ (Nat.mod_lt _ (by decide))

/-- A vector as a number: each port weighs what its place in `V[41:0]` weighs (rule R44). -/
theorem OpVec.ofPorts_toNat (op : BitVec 2) (a b ps pe pf : Word) :
    (OpVec.ofPorts op a b ps pe pf).toNat =
      op.toNat * 2 ^ 40 + a.toNat * 2 ^ 32 + b.toNat * 2 ^ 24 + ps.toNat * 2 ^ 16 + pe.toNat * 2 ^ 8
        + pf.toNat := by
  have join : ∀ {m : Nat} (x : BitVec m) (y : Word), (x ++ y).toNat = x.toNat * 2 ^ 8 + y.toNat := by
    intro m x y
    rw [BitVec.toNat_append, ← Nat.shiftLeft_add_eq_or_of_lt y.isLt, Nat.shiftLeft_eq]
  rw [OpVec.ofPorts, join, join, join, join, join]
  omega

/-- The bits of a vector, port by port (rule R44). -/
theorem OpVec.ofPorts_getLsbD (op : BitVec 2) (a b ps pe pf : Word) (k : Nat) :
    (OpVec.ofPorts op a b ps pe pf).getLsbD k =
      if k < 8 then pf.getLsbD k
      else if k - 8 < 8 then pe.getLsbD (k - 8)
      else if k - 8 - 8 < 8 then ps.getLsbD (k - 8 - 8)
      else if k - 8 - 8 - 8 < 8 then b.getLsbD (k - 8 - 8 - 8)
      else if k - 8 - 8 - 8 - 8 < 8 then a.getLsbD (k - 8 - 8 - 8 - 8)
      else op.getLsbD (k - 8 - 8 - 8 - 8 - 8) := by
  have join : ∀ {m : Nat} (x : BitVec m) (y : Word) (j : Nat),
      (x ++ y).getLsbD j = if j < 8 then y.getLsbD j else x.getLsbD (j - 8) := by
    intro m x y j
    rw [BitVec.getLsbD_append]
  rw [OpVec.ofPorts, join, join, join, join, join]

/-- A field of a vector as a number (rule R44). -/
theorem OpVec.field_toNat (v : OpVec) (start len : Nat) :
    (v.extractLsb' start len).toNat = v.toNat / 2 ^ start % 2 ^ len := by
  rw [BitVec.extractLsb'_toNat, Nat.shiftRight_eq_div_pow]

/-- Every port of a vector's own inputs is driven, whatever it selects. -/
@[simp] theorem Inputs.ofVector_driven (v : OpVec) : (Inputs.ofVector v).driven = true := by
  simp only [Inputs.driven, Inputs.ofVector]
  cases Select.ofBits (OpVec.op v) <;> rfl

/-- The four codes are all there are (rule R45). -/
@[simp] theorem Select.ofBits_bits (c : Select) : Select.ofBits c.bits = c := by
  cases c <;> decide

@[simp] theorem Select.bits_ofBits (c : BitVec 2) : (Select.ofBits c).bits = c := by
  revert c
  decide

end Sys2Proof.Machine
end

