-- ==== Sys2Proof/Laws/Arith.lean ====
section
/-!
SUPPORT. The steps ADD and MUL share: what each answers, once.
-/

namespace Sys2Proof.Machine

/-- Fuel beyond the significand's value changes nothing: the loop has ended by then. -/
theorem normaliseRightLoop_fuel (k : Nat) (w : Working) (h : w.f ≤ k) :
    normaliseRightLoop k w = normaliseRightLoop (k + 1) w := by
  induction k generalizing w with
  | zero => simp [normaliseRightLoop, Nat.le_zero.mp h]
  | succ k ih =>
    rw [normaliseRightLoop, normaliseRightLoop]
    split
    · exact ih _ (by simp only [Nat.shiftRight_eq_div_pow]; omega)
    · rfl

theorem normaliseRightLoop_fuel_le {k n : Nat} (w : Working) (h : w.f ≤ k) (hn : k ≤ n) :
    normaliseRightLoop n w = normaliseRightLoop k w := by
  induction n, hn using Nat.le_induction with
  | base => rfl
  | succ n hn ih => rw [← normaliseRightLoop_fuel n w (by omega), ih]

/-- A significand below 8 is left as it is (rules R76, R93). -/
theorem normaliseRight_of_lt {w : Working} (h : w.f < 8) : normaliseRight w = w := by
  unfold normaliseRight
  cases hf : w.f with
  | zero => rfl
  | succ k => rw [normaliseRightLoop, if_neg (by omega)]

/-- The loop's own equation: one shift, one more on the exponent, and on (rules R76, R93). -/
theorem normaliseRight_of_le {w : Working} (h : 8 ≤ w.f) :
    normaliseRight w = normaliseRight { w with f := w.f / 2, e := w.e + 1 } := by
  have hf : w.f = (w.f - 1) + 1 := by omega
  unfold normaliseRight
  rw [hf, normaliseRightLoop, if_pos (by omega), ← hf]
  exact normaliseRightLoop_fuel_le { w with f := w.f >>> 1, e := w.e + 1 }
    (by simp only [Nat.shiftRight_eq_div_pow]; omega) (by simp only; omega)

/-- After right normalisation the significand is below 8. -/
theorem normaliseRight_f_lt (w : Working) : (normaliseRight w).f < 8 := by
  suffices ∀ n, ∀ w : Working, w.f ≤ n → (normaliseRight w).f < 8 from this w.f w le_rfl
  intro n
  induction n with
  | zero => intro w h; rw [normaliseRight_of_lt (by omega)]; omega
  | succ n ih =>
    intro w h
    rcases Nat.lt_or_ge w.f 8 with h8 | h8
    · rw [normaliseRight_of_lt h8]; exact h8
    · rw [normaliseRight_of_le h8]; exact ih _ (by simp only; omega)

/-- Left normalisation of a zero significand (rule R78). -/
theorem normaliseLeft_zero {w : Working} (h : w.f = 0) : normaliseLeft w = { w with zs := true } := by
  simp [normaliseLeft, h]

/-- Left normalisation at exponent 0: nothing moves, and UF says whether the significand is below 4 (rule R79). -/
theorem normaliseLeft_clamp {w : Working} (h : w.f ≠ 0) (he : w.e = 0) :
    normaliseLeft w = { w with uf := decide (w.f < 4) } := by
  obtain ⟨s, e, f, sat, zs, uf⟩ := w
  simp only at h he
  subst he
  simp [normaliseLeft, h, normaliseLeftLoop]

/-- A significand of 4 or more is left as it is, with UF clear (rule R77). -/
theorem normaliseLeft_of_le {w : Working} (h : 4 ≤ w.f) : normaliseLeft w = { w with uf := false } := by
  obtain ⟨s, e, f, sat, zs, uf⟩ := w
  simp only at h
  have h0 : f ≠ 0 := by omega
  have h4 : ¬ f < 4 := by omega
  cases e <;> simp [normaliseLeft, h0, h4, normaliseLeftLoop]

/-- One turn of the left loop (rule R77). -/
theorem normaliseLeft_step {w : Working} (h : w.f ≠ 0) (h4 : w.f < 4) (he : w.e ≠ 0) :
    normaliseLeft w = normaliseLeft { w with f := 2 * w.f, e := w.e - 1 } := by
  obtain ⟨s, e, f, sat, zs, uf⟩ := w
  simp only at h h4 he
  obtain ⟨e, rfl⟩ := Nat.exists_eq_succ_of_ne_zero he
  have h2 : f <<< 1 = 2 * f := by simp [Nat.shiftLeft_eq, Nat.mul_comm]
  have h0 : 2 * f ≠ 0 := by omega
  simp [normaliseLeft, h, normaliseLeftLoop, h4, h2]

/-- Saturation, both ways (rules R80, R96). -/
theorem saturate_of_lt {w : Working} (h : 15 < w.e) :
    saturate w = { w with s := 0, e := 15, f := 0, sat := true } := by simp [saturate, h]

theorem saturate_of_le {w : Working} (h : w.e ≤ 15) : saturate w = w := by
  simp [saturate, Nat.not_lt.mpr h]

/-- Below 8 the rounding branch is not taken (rules R81, R82, R97). -/
theorem roundStep_of_lt {w : Working} (h : w.f < 8) : roundStep w = w := by
  have key : ∀ f < 8, f &&& 8 = 0 := by decide
  simp [roundStep, key _ h]

/-- The composed outputs as numbers (rules R83, R98). -/
theorem finish_y_toNat (w : Working) :
    (finish w).y.toNat = w.s % 2 * 128 + w.e % 16 * 8 + w.f % 8 := packWord_toNat _ _ _

theorem finish_st_toNat (w : Working) :
    (finish w).st.toNat = 8 * w.sat.toNat + 16 * w.zs.toNat + 32 * w.uf.toNat := by
  simp [finish, Status.word_toNat]

/-- Alignment as one pair of quotients: the smaller exponent's significand is divided by the power of the difference,
the other by 1 (rule R72). -/
theorem align_eq (x y : Fields) :
    align x y = (x.f / 2 ^ (max x.e y.e - x.e), y.f / 2 ^ (max x.e y.e - y.e), max x.e y.e) := by
  rcases Nat.lt_trichotomy x.e y.e with h | h | h
  · simp [align, h, Nat.max_eq_right h.le, Nat.shiftRight_eq_div_pow]
  · simp [align, h]
  · simp [align, h, Nat.lt_asymm h, Nat.max_eq_left h.le, Nat.shiftRight_eq_div_pow]

/-- Steps 1 to 4 of ADD as numbers (rules R71 to R75). -/
theorem addSum_eq (a b : Word) :
    addSum a b =
      { s := (unpack a).s
        e := max (unpack a).e (unpack b).e
        f := (unpack a).f / 2 ^ (max (unpack a).e (unpack b).e - (unpack a).e)
          + (unpack b).f / 2 ^ (max (unpack a).e (unpack b).e - (unpack b).e) } := by
  simp only [addSum, align_eq]

end Sys2Proof.Machine
end

