-- ==== Sys2Proof/Laws/PerInstr.lean ====
section
/-!
SUPPORT. Statements made per instruction. `CanonicalEncoding`: the encoding of an instruction is a canonical vector, in
which every field the instruction does not read is 0 (rules R48, R51).
-/

namespace Sys2Proof.Laws.CanonicalEncoding

open Sys2Proof Sys2Proof.Machine

/-- The encoding of `i` has no bit set outside `op` and the fields `i` reads (rule R48). -/
def Statement (i : Instr) : Prop := Safety.canonical (encode i) = encode i

/-- What lies above bit 39 is the select code. -/
theorem select_of_ofPorts (op : BitVec 2) (a b ps pe pf : Word) :
    (OpVec.ofPorts op a b ps pe pf).toNat / 2 ^ 40 = op.toNat := by
  rw [OpVec.ofPorts_toNat]
  have := a.isLt; have := b.isLt; have := ps.isLt; have := pe.isLt; have := pf.isLt
  omega

theorem unpack (a : Word) : Statement (.unpack a) := by
  have h := select_of_ofPorts 0b00#2 a 0 0 0 0
  simp only [Statement, Safety.canonical, Safety.readMask, encode, Select.bits, h]
  refine BitVec.eq_of_getLsbD_eq fun k hk => ?_
  rw [BitVec.getLsbD_and, OpVec.ofPorts_getLsbD]
  interval_cases k <;> simp

theorem pack (ps pe pf : Word) : Statement (.pack ps pe pf) := by
  have h := select_of_ofPorts 0b01#2 0 0 ps pe pf
  simp only [Statement, Safety.canonical, Safety.readMask, encode, Select.bits, h]
  refine BitVec.eq_of_getLsbD_eq fun k hk => ?_
  rw [BitVec.getLsbD_and, OpVec.ofPorts_getLsbD]
  interval_cases k <;> simp

theorem add (a b : Word) : Statement (.add a b) := by
  have h := select_of_ofPorts 0b10#2 a b 0 0 0
  simp only [Statement, Safety.canonical, Safety.readMask, encode, Select.bits, h]
  refine BitVec.eq_of_getLsbD_eq fun k hk => ?_
  rw [BitVec.getLsbD_and, OpVec.ofPorts_getLsbD]
  interval_cases k <;> simp

theorem mul (a b : Word) : Statement (.mul a b) := by
  have h := select_of_ofPorts 0b11#2 a b 0 0 0
  simp only [Statement, Safety.canonical, Safety.readMask, encode, Select.bits, h]
  refine BitVec.eq_of_getLsbD_eq fun k hk => ?_
  rw [BitVec.getLsbD_and, OpVec.ofPorts_getLsbD]
  interval_cases k <;> simp

end Sys2Proof.Laws.CanonicalEncoding
end

