-- ==== Sys2Proof/Machine/Reference.lean ====
section
/-!
DEFINITION. The two readings of a word as a number. NEITHER IS AN OPERATION OF THE BLOCK: no port computes them and no
operation reads them (rules R5, R14, R15). They are here so that the source's worked examples can be checked.
-/

namespace Sys2Proof.Machine

/-- The informative value `(-1)^s * (1 + f/8) * 2^(e - 7)` (rule R14). -/
def valueReading (w : Word) : ℚ :=
  (-1) ^ (unpack w).s * (1 + (unpack w).f / 8) * 2 ^ ((unpack w).e - Config.bias : ℤ)

/-- `to_float`: `(-1)^s * (1 + 2^(-f)) * 2^(e - 7)`, the source's documented approximation, as it stands (rule R15). -/
def toFloat (w : Word) : ℚ :=
  (-1) ^ (unpack w).s * (1 + 1 / 2 ^ (unpack w).f) * 2 ^ ((unpack w).e - Config.bias : ℤ)

end Sys2Proof.Machine
end

