-- ==== Sys2Proof/Tests/Slice0.lean ====
section
/-!
SUPPORT. Tests. Every expected result is taken from spec/: the vectors of 95_test_vectors.md (named by section), the
examples of the rules, or the encoding tables of 30_encoding.md. After them, a witness for every statement with
hypotheses.
-/

namespace Sys2Proof.Tests

open Sys2Proof Sys2Proof.Machine Sys2Proof.Safety

/-! ### Well-formedness: each check refuses something -/

theorem test_instr_wellformed : Instr.WellFormed (.pack 255 255 255) = true := by decide
/-- Rule R44: 42 bits and no more. -/
theorem test_vector_too_wide : IsVector 0x3FFFFFFFFFF ∧ ¬ IsVector 0x40000000000 := by decide
/-- Rule R50: a literal outside 0 to 255 is refused. -/
theorem test_operand_too_wide : IsOperand 255 ∧ ¬ IsOperand 256 := by decide
/-- Rule R66: each field against its own width. -/
theorem test_fields_too_wide :
    FieldsFit 1 15 7 ∧ ¬ FieldsFit 2 0 0 ∧ ¬ FieldsFit 0 16 0 ∧ ¬ FieldsFit 0 0 8 := by decide

/-! ### Decoding: words written out field by field from rules R44 and R45 -/

/-- op 00, a 11000010, the rest 0 (section 2.1: `UNPACK 0xC2`). -/
theorem test_decode_unpack :
    decode (0b00_11000010_00000000_00000000_00000000_00000000#42) = .unpack 0xC2#8 := by decide
/-- op 01, a and b 0, ps 3, pe 31, pf 15 (rule R44). -/
theorem test_decode_pack :
    decode (0b01_00000000_00000000_00000011_00011111_00001111#42) = .pack 3#8 31#8 15#8 := by decide
/-- op 10, a 00111111, b 10111111 (section 2.3: `ADD 0x3F, 0xBF`). -/
theorem test_decode_add :
    decode (0b10_00111111_10111111_00000000_00000000_00000000#42) = .add 0x3F#8 0xBF#8 := by decide
/-- op 11, a 00111111, b 10111000, and every ignored bit set (section 2.4: `MUL 0x3F, 0xB8`; rule R48). -/
theorem test_decode_mul :
    decode (0b11_00111111_10111000_11111111_11111111_11111111#42) = .mul 0x3F#8 0xB8#8 := by decide
/-- The vectors of sections 2.1 to 2.4, as the encoder gives them (rule R51). -/
theorem test_encode :
    encode (.unpack 0xFF#8) = 0x0FF00000000#42 ∧ encode (.pack 1#8 8#8 2#8) = 0x10000010802#42 ∧
      encode (.add 0x7C#8 0x7B#8) = 0x27C7B000000#42 ∧ encode (.mul 0x3F#8 0xB8#8) = 0x33FB8000000#42 := by
  decide
/-- A number with a bit above `V[41]` is no vector (rule R44). -/
theorem test_decode_number_too_wide :
    (match decodeNumber 0x40000000000 with | .error e => some e | .ok _ => none)
      = some (.moreThan42Bits 0x40000000000) := by decide
/-- The opcode table's "match" of ADD, in whole bytes. -/
theorem test_decode_table_word : decodeTableWord 48 0x20000000000 = some (.add 0#8 0#8) := by decide

/-! ### The operations: one step each -/

/-- The outputs a step ends with, if it ends in a next state. -/
def outputsOf : Host.Outcome State Fault Refusal → Option Outputs
  | .next t => some t.out
  | .fault _ => none
  | .refused _ => none

/-- The step of a vector placed on the inputs at power-up. -/
def run (v : Nat) : Option Outputs := outputsOf (step (State.reset.withFetchWord 42 v))

/-- Section 2.1: `UNPACK 0x42`. -/
theorem test_unpack_42 : run 0x04200000000 = some ⟨0x42#8, 0#1, 8#4, 2#3, 0#6⟩ := by decide
/-- Section 2.1: `UNPACK 0xFF`. -/
theorem test_unpack_ff : run 0x0FF00000000 = some ⟨0xFF#8, 1#1, 15#4, 7#3, 0#6⟩ := by decide
/-- Section 2.2: `PACK 1, 16, 8`; an excess exponent bit must not reach the sign, nor an excess significand bit the
exponent. -/
theorem test_pack_out_of_range : run 0x10000011008 = some ⟨0x80#8, 1#1, 0#4, 0#3, 0b000110#6⟩ := by decide
/-- Section 2.2: `PACK 3, 0, 0`. -/
theorem test_pack_sign_out_of_range : run 0x10000030000 = some ⟨0x80#8, 1#1, 0#4, 0#3, 0b000001#6⟩ := by decide
/-- Section 2.3: `ADD 0x08, 0x09`; one left shift, then the clamp. -/
theorem test_add_clamp : run 0x20809000000 = some ⟨0x02#8, 0#1, 0#4, 2#3, 0b100000#6⟩ := by decide
/-- Section 2.3: `ADD 0xFF, 0xFF`; negative operands saturate to the positive word. -/
theorem test_add_saturates : run 0x2FFFF000000 = some ⟨0x78#8, 0#1, 15#4, 0#3, 0b001000#6⟩ := by decide
/-- Section 2.4: `MUL 0x21, 0x9A`; significands 1 and 2, so both reversals show. -/
theorem test_mul_reversed : run 0x3219A000000 = some ⟨0xBC#8, 1#1, 7#4, 4#3, 0#6⟩ := by decide
/-- Section 2.4: `MUL 0x3F, 0x3F`; with a 3-bit second reversal it would be `0x74` (90_conflicts.md C1). -/
theorem test_mul_saturates : run 0x33F3F000000 = some ⟨0x78#8, 0#1, 15#4, 0#3, 0b001000#6⟩ := by decide

/-! ### The ports -/

/-- UNPACK with every ignored port undriven (rules R30, R115); section 2.1: `UNPACK 0x38`. -/
theorem test_ignored_ports_undriven :
    outputsOf (step
      { State.reset with
        inp := { Inputs.undriven with op := some 0b00#2, a := some 0x38#8 }, stable := true })
      = some ⟨0x38#8, 0#1, 7#4, 0#3, 0#6⟩ := by decide
/-- Sampling at power-up completes, drives no input and draws one free value (rules R113, R115). -/
theorem test_step_at_reset :
    (match step State.reset with | .next t => some (t.inp, t.stable, t.draws) | _ => none)
      = some (Inputs.undriven, false, 1) := by decide
/-- Changing an input UNPACK ignores leaves its inputs stable; changing the one it reads does not (rule R117). -/
theorem test_drive_stability :
    let s := State.reset.withFetchWord 42 0x04200000000
    (s.drive (Inputs.ofVector 0x042FF000000#42)).stable = true ∧
      (s.drive (Inputs.ofVector 0x04300000000#42)).stable = false := by decide

/-! ### Notation, caller, reference readings -/

/-- Rule R55 with the vector of rule R51's example. -/
theorem test_disassemble : String.ofList (disassembleText 0x23F3F000000#42) = "ADD 0x3F, 0x3F" := by decide
/-- Rules R50, R52: a labelled line, a literal of each form, a reference to a field. -/
theorem test_parse :
    parseAssign "t1 <- PACK 0b1, t0.e, 7".toList
      = .ok ⟨some "t1", .pack (.lit 1) (.ref "t0" .e) (.lit 7)⟩ := by decide
/-- Program P3 of section 3, its second line: `t1 <- ADD t0, 0x3F` with `t0 = 0xBC` gives `0xC5`. -/
theorem test_caller_line :
    (match runAssign ⟨some "t1", .add (.ref "t0" .y) (.lit 0x3F)⟩
        (State.reset, [("t0", ⟨0xBC#8, 1#1, 7#4, 4#3, 0#6⟩)]) with
      | .ok (_, env) => env.head?
      | .error _ => none)
      = some ("t1", ⟨0xC5#8, 1#1, 8#4, 5#3, 0#6⟩) := by decide
/-- Rule R50: a literal outside 0 to 255 is refused. -/
theorem test_caller_literal_refused :
    (match (Line.add (.lit 256) (.lit 0)).assemble [] with | .error r => some r | .ok _ => none)
      = some (.literalOutOfRange 256) := by decide
/-- Section 1, S1: `to_float(0x42) = 2.5`. -/
theorem test_to_float : toFloat 0x42#8 = 5 / 2 := by
  have h : unpack 0x42#8 = ⟨0, 8, 2⟩ := by decide
  norm_num [toFloat, h, Config.bias]
/-- Section 1, S2: the informative value of `0x3F` is 1.875. -/
theorem test_value_reading : valueReading 0x3F#8 = 15 / 8 := by
  have h : unpack 0x3F#8 = ⟨0, 7, 7⟩ := by decide
  norm_num [valueReading, h, Config.bias]

/-! ### Witnesses: every statement with hypotheses has inputs that meet them -/

/-- The power-up state with a vector on its inputs. -/
def placed (v : Nat) : State := State.reset.withFetchWord 42 v

/-- SelectCodesDecode: the least and the greatest vector of each code. -/
theorem witness_select_codes :
    (0x00000000000#42).toNat / 2 ^ 40 = 0 ∧ (0x0FFFFFFFFFF#42).toNat / 2 ^ 40 = 0 ∧
      (0x10000000000#42).toNat / 2 ^ 40 = 1 ∧ (0x1FFFFFFFFFF#42).toNat / 2 ^ 40 = 1 ∧
      (0x20000000000#42).toNat / 2 ^ 40 = 2 ∧ (0x2FFFFFFFFFF#42).toNat / 2 ^ 40 = 2 ∧
      (0x30000000000#42).toNat / 2 ^ 40 = 3 ∧ (0x3FFFFFFFFFF#42).toNat / 2 ^ 40 = 3 := by decide
/-- LineEncodingFormulas. -/
theorem witness_line_literals : (0 : Nat) < 256 ∧ (255 : Nat) < 256 ∧ ¬ (256 : Nat) < 256 := by decide
/-- StepRunsDecoded: one state for each operation. -/
theorem witness_fetch :
    (placed 0x04200000000).fetch = some 0x04200000000#42 ∧ (placed 0x10000010802).fetch = some 0x10000010802#42 ∧
      (placed 0x23F3F000000).fetch = some 0x23F3F000000#42 ∧ (placed 0x3219A000000).fetch = some 0x3219A000000#42 := by
  decide
/-- VectorOfPorts. -/
theorem witness_all_ports_driven :
    (placed 0x3FFFFFFFFFF).stable = true ∧
      (placed 0x3FFFFFFFFFF).inp =
        { op := some 3#2, a := some 255#8, b := some 255#8, ps := some 255#8, pe := some 255#8,
          pf := some 255#8 } := by decide
/-- IgnoredPortsMayBeUndriven: each clause, with the ignored ports undriven. -/
theorem witness_ignored_undriven :
    (∃ s : State, s.stable = true ∧ s.inp.op = some 0b00#2 ∧ s.inp.a = some 0#8 ∧ s.inp.b = none) ∧
      (∃ s : State, s.stable = true ∧ s.inp.op = some 0b01#2 ∧ s.inp.ps = some 255#8 ∧ s.inp.pe = some 255#8 ∧
        s.inp.pf = some 255#8 ∧ s.inp.a = none) ∧
      (∃ s : State, s.stable = true ∧ s.inp.op = some 0b10#2 ∧ s.inp.a = some 0#8 ∧ s.inp.b = some 255#8 ∧
        s.inp.pf = none) ∧
      ∃ s : State, s.stable = true ∧ s.inp.op = some 0b11#2 ∧ s.inp.a = some 255#8 ∧ s.inp.b = some 0#8 ∧
        s.inp.ps = none :=
  ⟨⟨{ State.reset with stable := true, inp := { Inputs.undriven with op := some 0, a := some 0 } }, by decide⟩,
    ⟨{ State.reset with stable := true
                        inp := { Inputs.undriven with op := some 1, ps := some 255, pe := some 255, pf := some 255 } },
      by decide⟩,
    ⟨{ State.reset with stable := true, inp := { Inputs.undriven with op := some 2, a := some 0, b := some 255 } },
      by decide⟩,
    ⟨{ State.reset with stable := true, inp := { Inputs.undriven with op := some 3, a := some 255, b := some 0 } },
      by decide⟩⟩
/-- UnsettledSampleIsFree: each case. The last two need ADD and MUL with one operand undriven. -/
theorem witness_unsettled :
    ({ placed 0x04200000000 with stable := false } : State).stable = false ∧
      State.reset.inp.op = none ∧
      (let s : State :=
          { State.reset with inp := { Inputs.undriven with op := some 0, b := some 0 } }
       s.inp.op = some 0b00#2 ∧ s.inp.a = none) ∧
      (let s : State :=
          { State.reset with inp := { Inputs.undriven with op := some 1, ps := some 0, pf := some 255 } }
       s.inp.op = some 0b01#2 ∧ s.inp.pe = none) ∧
      (let s : State :=
          { State.reset with inp := { Inputs.undriven with op := some 2, a := some 0 } }
       s.inp.op = some 0b10#2 ∧ s.inp.b = none) ∧
      (let s : State :=
          { State.reset with inp := { Inputs.undriven with op := some 3, b := some 255 } }
       s.inp.op = some 0b11#2 ∧ s.inp.a = none) :=
  ⟨rfl, rfl, ⟨rfl, rfl⟩, ⟨rfl, rfl⟩, ⟨rfl, rfl⟩, ⟨rfl, rfl⟩⟩
/-- StepFrame: both cases of its count. -/
theorem witness_step_frame :
    (State.reset.ready = false ∧ step State.reset = .next State.reset.sampleAny) ∧
      (placed 0x2FFFF000000).ready = true ∧
      step (placed 0x2FFFF000000)
        = .next { placed 0x2FFFF000000 with out := ⟨0x78#8, 0#1, 15#4, 0#3, 0b001000#6⟩ } :=
  ⟨⟨rfl, rfl⟩, rfl, rfl⟩
/-- StepIdempotent. -/
theorem witness_step_idempotent :
    ∃ t, (placed 0x04200000000).ready = true ∧ step (placed 0x04200000000) = .next t :=
  ⟨{ placed 0x04200000000 with out := ⟨0x42#8, 0#1, 8#4, 2#3, 0#6⟩ }, rfl, rfl⟩
/-- OutputsDependOnReadInputs: two states for each operation that differ in an ignored port. -/
theorem witness_same_read :
    (∀ p ∈ [((0x04200000000 : Nat), (0x042FFFFFFFF : Nat)), (0x10000010802, 0x1FFFF010802),
        (0x23F3F000000, 0x23F3FFFFFFF), (0x3219A000000, 0x3219A000001)],
      (placed p.1).ready = true ∧ (placed p.2).stable = true ∧ SameRead (placed p.1).inp (placed p.2).inp ∧
        (placed p.1).inp ≠ (placed p.2).inp) := by decide
/-- PlacedWordRuns: the opcode table's match words, in whole bytes. -/
theorem witness_placed_word :
    decodeTableWord 48 0x00000000000 = some (.unpack 0#8) ∧ decodeTableWord 48 0x10000000000 = some (.pack 0#8 0#8 0#8) ∧
      decodeTableWord 42 0x3FFFF000000 = some (.mul 255#8 255#8) := by decide
/-- RevReversesBits, at the widths of rules R90 and R92 and at the ends of `k`. -/
theorem witness_rev : 7 < 2 ^ 3 ∧ 49 < 2 ^ 6 ∧ (0 : Nat) < 6 ∧ (5 : Nat) < 6 := by decide
/-- PackWordCutsFields, at the ends of each range. -/
theorem witness_fields_in_range : (1 ≤ 1 ∧ 15 ≤ 15 ∧ 7 ≤ 7) ∧ (0 ≤ 1 ∧ 0 ≤ 15 ∧ (0 : Nat) ≤ 7) := by decide
/-- UnpackOfPack and PackInRange. -/
theorem witness_pack_in_range :
    FieldsFit (1#8).toNat (15#8).toNat (7#8).toNat ∧ FieldsFit (0#8).toNat (0#8).toNat (0#8).toNat := by decide
/-- PackFieldsAreLowBits: each field just out of range, and at the end of its port. -/
theorem witness_pack_out_of_range :
    1 < (2#8).toNat ∧ 1 < (255#8).toNat ∧ 15 < (16#8).toNat ∧ 15 < (255#8).toNat ∧ 7 < (8#8).toNat ∧
      7 < (255#8).toNat := by decide
/-- AddAlignment: `ADD 0x3C, 0x44`, its swap, equal exponents, and differences of 3 and 15 either way. -/
theorem witness_alignment :
    expOf 0x3C#8 < expOf 0x44#8 ∧ expOf 0x44#8 = expOf 0x47#8 ∧ 3 ≤ expOf 0x20#8 - expOf 0x08#8 ∧
      expOf 0x20#8 - expOf 0x08#8 = 3 ∧ expOf 0x7F#8 - expOf 0x00#8 = 15 := by decide
/-- AddSignOfFirst, AddZeroSum, AddExponentClamp, AddSaturation, AddOperandOrder, AddBounds: an input pair for each
status, from section 2.3, at the first and the last exponent it can have. -/
theorem witness_add_status :
    (addOutputs 0x3F#8 0xBF#8).st = 0 ∧
      (addOutputs 0x00#8 0x00#8).zs = true ∧ (addOutputs 0x78#8 0x78#8).zs = true ∧
      (addOutputs 0x00#8 0x01#8).uf = true ∧ (addOutputs 0x08#8 0x09#8).uf = true ∧
      (addOutputs 0x09#8 0x09#8).uf = false ∧
      (addOutputs 0x7C#8 0x7C#8).sat = true ∧ (addOutputs 0x7C#8 0x7B#8).sat = false := by decide
/-- LongMultiplication and MulSignificandTable. -/
theorem witness_three_bits : (0 : Nat) < 8 ∧ (7 : Nat) < 8 := by decide
/-- MulSignXor, MulSaturation: a pair on either side of saturation, from section 2.4. -/
theorem witness_mul_status :
    (mulOutputs 0x38#8 0x40#8).sat = false ∧ (mulOutputs 0x40#8 0x41#8).sat = true ∧
      (mulOutputs 0x41#8 0x3F#8).sat = true := by decide
/-- MulKeepsSmallSignificands: `MUL 0x09, 0x09` has `rev_6(p) = 2`; `MUL 0x38, 0x40` has a zero significand and
exponent sum 15. -/
theorem witness_mul_small :
    mulSignificand (sigOf 0x09#8) (sigOf 0x09#8) < 8 ∧
      (sigOf 0x38#8 = 0 ∨ sigOf 0x40#8 = 0) ∧ expOf 0x38#8 + expOf 0x40#8 ≤ 15 := by decide
/-- StepKeepsOutputInv by its first disjunct, from a state no run reaches: its outputs are consistent, its counter is
not 0. -/
theorem witness_output_inv :
    let s : State := { placed 0x23F3F000000 with out := ⟨0xC2#8, 1#1, 8#4, 2#3, 0#6⟩, draws := 5 }
    OutputInv s ∧ step s = .next { s with out := ⟨0x47#8, 0#1, 8#4, 7#3, 0#6⟩ } :=
  ⟨Or.inl (by decide), rfl⟩

/-- StepKeepsOutputInv by its second disjunct, with the least number drawn and a counter just above it: the state after a
sample at power-up holds a free value, and one more sample of it draws the next (log entry 5). -/
theorem witness_output_inv_free :
    let s : State := State.reset.sampleAny
    (0 < s.draws ∧ s.out = Outputs.free 0) ∧ OutputInv s ∧
      step s = .next { s with out := Outputs.free 1, draws := 2 } :=
  ⟨⟨by decide, rfl⟩, Or.inr ⟨0, by decide, rfl⟩, rfl⟩

end Sys2Proof.Tests
end

