-- ==== Sys2Proof/Proofs/Rev.lean ====
section
/-!
PROOF. Bit reversal (rule R12): the bits of `rev`, from which its width and its meaning follow.
-/

namespace Sys2Proof.Machine

/-- A fold of `|||` has a bit exactly where its start or one of its terms has it. -/
theorem testBit_foldl_or (g : Nat → Nat) (j : Nat) (l : List Nat) (r : Nat) :
    (l.foldl (fun r k => r ||| g k) r).testBit j = (r.testBit j || l.any fun k => (g k).testBit j) := by
  induction l generalizing r with
  | nil => simp
  | cons k l ih => simp [ih, Bool.or_assoc]

/-- Bit `k` of `x`, cut out and moved to place `m`, is a bit at place `m` only. -/
theorem testBit_placedBit (x k m j : Nat) :
    (((x >>> k) &&& 1) <<< m).testBit j = (decide (j = m) && x.testBit k) := by
  rw [Nat.testBit_shiftLeft, Nat.testBit_and, Nat.testBit_shiftRight]
  rcases Nat.lt_trichotomy j m with hlt | rfl | hgt
  · simp [hlt.ne, Nat.not_le.mpr hlt]
  · simp
  · have hone : Nat.testBit 1 (j - m) = false :=
      Nat.testBit_lt_two_pow (Nat.one_lt_two_pow (Nat.sub_ne_zero_of_lt hgt))
    simp [hone, hgt.ne']

/-- Every bit of `rev n x`, for any `x`: below `n` the mirrored bit, none from `n` on. -/
theorem rev_testBit (n x j : Nat) : (rev n x).testBit j = (decide (j < n) && x.testBit (n - 1 - j)) := by
  rw [rev, testBit_foldl_or, Bool.eq_iff_iff]
  simp only [testBit_placedBit, Nat.zero_testBit, Bool.false_or, List.any_eq_true, List.mem_range,
    Bool.and_eq_true, decide_eq_true_eq]
  constructor
  · rintro ⟨k, hk, rfl, hbit⟩
    have hback : n - 1 - (n - 1 - k) = k := by omega
    exact ⟨by omega, by rwa [hback]⟩
  · rintro ⟨hj, hbit⟩
    exact ⟨n - 1 - j, by omega, by omega, hbit⟩

/-- `rev n x` has `n` bits, for any `x`. -/
theorem rev_lt_two_pow (n x : Nat) : rev n x < 2 ^ n :=
  Nat.lt_pow_two_of_testBit _ fun j hj => by simp [rev_testBit, Nat.not_lt.mpr hj]

/-- Settles O20: both parts read off the bits of `rev`, by `rev_testBit`; the bound on `x` is not needed. -/
theorem revReversesBits : Obligations.RevReversesBits := by
  intro n x _
  refine ⟨rev_lt_two_pow n x, fun k hk => ?_⟩
  rw [rev_testBit, decide_eq_true hk, Bool.true_and]

end Sys2Proof.Machine
end

