-- ==== Sys2Proof/Proofs/Step.lean ====
section
/-!
PROOF. What one step is: the instruction the input ports select, the outputs that instruction ends with, and the two
cases of a step (rules R30, R46, R115, R117).
-/

namespace Sys2Proof.Machine

open Sys2Proof.Safety

/-! ### The outputs of an instruction -/

/-- The outputs `exec` samples; the state has no part in them (rule R30). -/
def execOutputs : Instr → Outputs
  | .unpack a => unpackOutputs a
  | .pack ps pe pf => packOutputs ps pe pf
  | .add a b => addOutputs a b
  | .mul a b => mulOutputs a b

/-- `exec` samples `execOutputs` and leaves the rest of the state. -/
theorem exec_eq (i : Instr) (s : State) : exec i s = .next { s with out := execOutputs i } := by
  cases i <;> rfl

/-- The outputs of every instruction are the bundle of one word and one status (rules R25, R27). -/
theorem execOutputs_eq_ofResult (i : Instr) : ∃ y c, execOutputs i = Outputs.ofResult y c := by
  cases i <;> exact ⟨_, _, rfl⟩

/-- Each field of a vector made of six ports is its port (rule R44). -/
@[simp] theorem OpVec.fields_ofPorts (op : BitVec 2) (a b ps pe pf : Word) :
    OpVec.op (OpVec.ofPorts op a b ps pe pf) = op ∧ OpVec.a (OpVec.ofPorts op a b ps pe pf) = a ∧
      OpVec.b (OpVec.ofPorts op a b ps pe pf) = b ∧ OpVec.ps (OpVec.ofPorts op a b ps pe pf) = ps ∧
      OpVec.pe (OpVec.ofPorts op a b ps pe pf) = pe ∧ OpVec.pf (OpVec.ofPorts op a b ps pe pf) = pf := by
  refine ⟨?_, ?_, ?_, ?_, ?_, ?_⟩ <;> apply BitVec.eq_of_toNat_eq <;>
    simp only [OpVec.op, OpVec.a, OpVec.b, OpVec.ps, OpVec.pe, OpVec.pf, OpVec.field_toNat,
      OpVec.ofPorts_toNat] <;>
    omega

/-! ### The instruction the ports select -/

/-- The ports select `i`: `op` holds its code and the ports it reads hold its operands. Nothing is said of the ports it
ignores (rules R45, R46). -/
def Inputs.Selects (p : Inputs) : Instr → Prop
  | .unpack a => p.op = some 0b00#2 ∧ p.a = some a
  | .pack ps pe pf => p.op = some 0b01#2 ∧ p.ps = some ps ∧ p.pe = some pe ∧ p.pf = some pf
  | .add a b => p.op = some 0b10#2 ∧ p.a = some a ∧ p.b = some b
  | .mul a b => p.op = some 0b11#2 ∧ p.a = some a ∧ p.b = some b

/-- Ports that select an instruction are driven where that instruction reads them. -/
theorem Inputs.driven_of_selects {p : Inputs} {i : Instr} (h : p.Selects i) : p.driven = true := by
  cases i with
  | unpack a => obtain ⟨hop, ha⟩ := h; simp [Inputs.driven, hop, ha, Select.ofBits]
  | pack ps pe pf => obtain ⟨hop, hs, he, hf⟩ := h; simp [Inputs.driven, hop, hs, he, hf, Select.ofBits]
  | add a b => obtain ⟨hop, ha, hb⟩ := h; simp [Inputs.driven, hop, ha, hb, Select.ofBits]
  | mul a b => obtain ⟨hop, ha, hb⟩ := h; simp [Inputs.driven, hop, ha, hb, Select.ofBits]

/-- Ports that are driven where it matters select an instruction. -/
theorem Inputs.selects_of_driven {p : Inputs} (h : p.driven = true) : ∃ i, p.Selects i := by
  obtain ⟨op, a, b, ps, pe, pf⟩ := p
  cases op with
  | none => simp [Inputs.driven] at h
  | some c =>
    have hc : c = (Select.ofBits c).bits := (Select.bits_ofBits c).symm
    cases hsel : Select.ofBits c <;> rw [hsel] at hc <;>
      simp only [Inputs.driven, hsel, Bool.and_eq_true, Option.isSome_iff_exists] at h
    case unpack =>
      obtain ⟨x, rfl⟩ := h
      exact ⟨.unpack x, congrArg some hc, rfl⟩
    case pack =>
      obtain ⟨⟨⟨x, rfl⟩, y, rfl⟩, z, rfl⟩ := h
      exact ⟨.pack x y z, congrArg some hc, rfl, rfl, rfl⟩
    case add =>
      obtain ⟨⟨x, rfl⟩, y, rfl⟩ := h
      exact ⟨.add x y, congrArg some hc, rfl, rfl⟩
    case mul =>
      obtain ⟨⟨x, rfl⟩, y, rfl⟩ := h
      exact ⟨.mul x y, congrArg some hc, rfl, rfl⟩

/-- The vector read off the ports decodes to the instruction they select, whatever stands on the ignored ports. -/
theorem Inputs.decode_vector_of_selects {p : Inputs} {i : Instr} (h : p.Selects i) : decode p.vector = i := by
  cases i with
  | unpack a => obtain ⟨hop, ha⟩ := h; simp [decode, Inputs.vector, hop, ha, Select.ofBits]
  | pack ps pe pf => obtain ⟨hop, hs, he, hf⟩ := h; simp [decode, Inputs.vector, hop, hs, he, hf, Select.ofBits]
  | add a b => obtain ⟨hop, ha, hb⟩ := h; simp [decode, Inputs.vector, hop, ha, hb, Select.ofBits]
  | mul a b => obtain ⟨hop, ha, hb⟩ := h; simp [decode, Inputs.vector, hop, ha, hb, Select.ofBits]

/-- Ports that agree on `op` and on all it reads select the same instruction (rule R30). -/
theorem Inputs.selects_of_sameRead {p q : Inputs} {i : Instr} (hpq : SameRead p q) (h : p.Selects i) :
    q.Selects i := by
  obtain ⟨hop, hunpack, hpack, harith⟩ := hpq
  cases i with
  | unpack a =>
    obtain ⟨hc, ha⟩ := h
    exact ⟨hop ▸ hc, hunpack hc ▸ ha⟩
  | pack ps pe pf =>
    obtain ⟨hc, hs, he, hf⟩ := h
    obtain ⟨es, ee, ef⟩ := hpack hc
    exact ⟨hop ▸ hc, es ▸ hs, ee ▸ he, ef ▸ hf⟩
  | add a b =>
    obtain ⟨hc, ha, hb⟩ := h
    obtain ⟨ea, eb⟩ := harith (.inl hc)
    exact ⟨hop ▸ hc, ea ▸ ha, eb ▸ hb⟩
  | mul a b =>
    obtain ⟨hc, ha, hb⟩ := h
    obtain ⟨ea, eb⟩ := harith (.inr hc)
    exact ⟨hop ▸ hc, ea ▸ ha, eb ▸ hb⟩

/-! ### The step -/

/-- A step of stable inputs is the instruction they select. -/
theorem step_of_selects {s : State} {i : Instr} (hst : s.stable = true) (h : s.inp.Selects i) :
    step s = exec i s := by
  have hready : s.ready = true := s.ready_iff.mpr ⟨hst, Inputs.driven_of_selects h⟩
  simp only [step, State.fetch_of_ready hready, Inputs.decode_vector_of_selects h]

theorem step_of_not_ready {s : State} (h : s.ready = false) : step s = .next s.sampleAny := by
  simp only [step, State.fetch_of_not_ready h]

/-- Everything a step can do: sample the outputs of an instruction, or a free value (rules R113, R115, R117). -/
theorem step_cases (s : State) :
    (∃ i, s.ready = true ∧ s.inp.Selects i ∧ step s = .next (s.sample (execOutputs i))) ∨
      (s.ready = false ∧ step s = .next s.sampleAny) := by
  cases hready : s.ready with
  | false => exact .inr ⟨rfl, step_of_not_ready hready⟩
  | true =>
    obtain ⟨hst, hdriven⟩ := s.ready_iff.mp hready
    obtain ⟨i, hi⟩ := Inputs.selects_of_driven hdriven
    exact .inl ⟨i, rfl, hi, (step_of_selects hst hi).trans (exec_eq i s)⟩

/-- Settles O10: in each clause the hypotheses say that the ports select the instruction. -/
theorem ignoredPortsMayBeUndriven : Obligations.IgnoredPortsMayBeUndriven :=
  ⟨fun _ _ hst hop ha => step_of_selects hst ⟨hop, ha⟩,
    fun _ _ _ _ hst hop hs he hf => step_of_selects hst ⟨hop, hs, he, hf⟩,
    fun _ _ _ hst hop ha hb => step_of_selects hst ⟨hop, ha, hb⟩,
    fun _ _ _ hst hop ha hb => step_of_selects hst ⟨hop, ha, hb⟩⟩

/-- Settles O15: both states select the same instruction, and its outputs do not depend on the state. -/
theorem outputsDependOnReadInputs : Obligations.OutputsDependOnReadInputs := by
  intro s s' hready hst' hsame
  obtain ⟨hst, hdriven⟩ := s.ready_iff.mp hready
  obtain ⟨i, hi⟩ := Inputs.selects_of_driven hdriven
  have hi' : s'.inp.Selects i := Inputs.selects_of_sameRead hsame hi
  exact ⟨_, _, (step_of_selects hst hi).trans (exec_eq i s), (step_of_selects hst' hi').trans (exec_eq i s'), rfl⟩

end Sys2Proof.Machine
end

