-- ==== Sys2Proof/Proofs/WorkingStatus.lean ====
section
/-!
PROOF. The working values of ADD and MUL: what each shared step leaves of the status conditions, and the predicate that
ties these conditions to the exponent and the significand (rules R78, R79, R80, R96, R104).
-/

namespace Sys2Proof.Machine

open Sys2Proof.Safety

/-! ### Frames of the shared steps -/

/-- The right loop writes the exponent and the significand only. -/
theorem normaliseRightLoop_frame (k : Nat) (w : Working) :
    normaliseRightLoop k w =
      { w with e := (normaliseRightLoop k w).e, f := (normaliseRightLoop k w).f } := by
  induction k generalizing w with
  | zero => rfl
  | succ k ih =>
    rw [normaliseRightLoop]
    split
    · exact ih { w with f := w.f >>> 1, e := w.e + 1 }
    · rfl

/-- Right normalisation writes the exponent and the significand only (rules R76, R93). -/
theorem normaliseRight_frame (w : Working) :
    normaliseRight w = { w with e := (normaliseRight w).e, f := (normaliseRight w).f } :=
  normaliseRightLoop_frame w.f w

@[simp] theorem normaliseRight_sat (w : Working) : (normaliseRight w).sat = w.sat := by rw [normaliseRight_frame]
@[simp] theorem normaliseRight_zs (w : Working) : (normaliseRight w).zs = w.zs := by rw [normaliseRight_frame]
@[simp] theorem normaliseRight_uf (w : Working) : (normaliseRight w).uf = w.uf := by rw [normaliseRight_frame]

@[simp] theorem saturate_zs (w : Working) : (saturate w).zs = w.zs := by unfold saturate; split <;> rfl
@[simp] theorem saturate_uf (w : Working) : (saturate w).uf = w.uf := by unfold saturate; split <;> rfl

@[simp] theorem roundStep_zs (w : Working) : (roundStep w).zs = w.zs := by unfold roundStep; split <;> rfl
@[simp] theorem roundStep_uf (w : Working) : (roundStep w).uf = w.uf := by unfold roundStep; split <;> rfl

@[simp] theorem finish_es (w : Working) : (finish w).es = false := by simp [finish]
@[simp] theorem finish_ee (w : Working) : (finish w).ee = false := by simp [finish]
@[simp] theorem finish_ef (w : Working) : (finish w).ef = false := by simp [finish]
@[simp] theorem finish_sat (w : Working) : (finish w).sat = w.sat := by simp [finish]
@[simp] theorem finish_zs (w : Working) : (finish w).zs = w.zs := by simp [finish]
@[simp] theorem finish_uf (w : Working) : (finish w).uf = w.uf := by simp [finish]

/-! ### The loops -/

/-- Right normalisation makes no zero: what it leaves at 0 was 0, and has not moved (rules R76, R93). -/
theorem normaliseRight_eq_of_f_eq_zero {w : Working} (h : (normaliseRight w).f = 0) : normaliseRight w = w := by
  suffices ∀ n, ∀ w : Working, w.f ≤ n → 8 ≤ w.f → (normaliseRight w).f ≠ 0 by
    rcases Nat.lt_or_ge w.f 8 with h8 | h8
    · exact normaliseRight_of_lt h8
    · exact absurd h (this w.f w le_rfl h8)
  intro n
  induction n with
  | zero => intro w hn h8; omega
  | succ n ih =>
    intro w hn h8
    rw [normaliseRight_of_le h8]
    rcases Nat.lt_or_ge (w.f / 2) 8 with hlt | hge
    · rw [normaliseRight_of_lt hlt]
      simp only
      omega
    · exact ih _ (by simp only; omega) hge

/-- The left loop from a significand of 1 to 7 keeps it there, and ends with UF only at exponent 0 with a significand
below 4 (rules R77, R79). -/
theorem normaliseLeftLoop_bounds {e f e' f' : Nat} {uf : Bool} (hf : 0 < f) (h8 : f < 8)
    (h : normaliseLeftLoop e f = (e', f', uf)) :
    0 < f' ∧ f' < 8 ∧ (uf = true → e' = 0 ∧ f' < 4) := by
  induction e generalizing f with
  | zero =>
    simp only [normaliseLeftLoop, Prod.mk.injEq] at h
    obtain ⟨rfl, rfl, rfl⟩ := h
    exact ⟨hf, h8, by simp⟩
  | succ e ih =>
    rw [normaliseLeftLoop] at h
    split at h
    next h4 =>
      have hshift : f <<< 1 = 2 * f := by rw [Nat.shiftLeft_eq]; omega
      exact ih (by omega) (by omega) h
    next =>
      obtain ⟨rfl, rfl, rfl⟩ := h
      exact ⟨hf, h8, by simp⟩

/-! ### The status conditions tell the working value -/

/-- What each condition set so far says of the working value: SAT the parts of `0x78`, ZS a zero significand with no
exponent to saturate, UF the clamp (rules R78, R79, R80). -/
structure Working.StatusFits (w : Working) : Prop where
  f_lt : w.f < 8
  of_sat : w.sat = true → w.s = 0 ∧ w.e = 15 ∧ w.f = 0 ∧ w.zs = false
  of_zs : w.zs = true → w.e ≤ 15 ∧ w.f = 0
  of_uf : w.uf = true → w.e = 0 ∧ 0 < w.f ∧ w.f < 4

/-- With no condition set, a significand below 8 is all that is asked. -/
theorem Working.StatusFits.of_clear {w : Working} (hf : w.f < 8) (hsat : w.sat = false) (hzs : w.zs = false)
    (huf : w.uf = false) : w.StatusFits :=
  ⟨hf, by simp [hsat], by simp [hzs], by simp [huf]⟩

/-- Left normalisation sets ZS or UF where it should (rules R77, R78, R79). -/
theorem normaliseLeft_statusFits {w : Working} (hf : w.f < 8) (he : w.f = 0 → w.e ≤ 15) (hsat : w.sat = false)
    (hzs : w.zs = false) (huf : w.uf = false) : (normaliseLeft w).StatusFits := by
  rcases Nat.eq_zero_or_pos w.f with h0 | hpos
  · rw [normaliseLeft_zero h0]
    exact ⟨hf, by simp [hsat], fun _ => ⟨he h0, h0⟩, by simp [huf]⟩
  · rcases hloop : normaliseLeftLoop w.e w.f with ⟨e, f, uf⟩
    obtain ⟨hlo, hhi, hclamp⟩ := normaliseLeftLoop_bounds hpos hf hloop
    have hw : normaliseLeft w = { w with e := e, f := f, uf := uf } := by
      simp [normaliseLeft, hpos.ne', hloop]
    rw [hw]
    exact ⟨hhi, by simp [hsat], by simp [hzs], fun h => ⟨(hclamp h).1, hlo, (hclamp h).2⟩⟩

/-- Saturation never meets ZS or UF, whose exponents are in range (rules R80, R96, R104). -/
theorem saturate_statusFits {w : Working} (h : w.StatusFits) : (saturate w).StatusFits := by
  rcases Nat.lt_or_ge 15 w.e with hlt | hle
  · have hzs : w.zs = false := Bool.eq_false_iff.mpr fun h1 => Nat.not_le.mpr hlt (h.of_zs h1).1
    have huf : w.uf = false := Bool.eq_false_iff.mpr fun h1 => by
      have := (h.of_uf h1).1
      omega
    rw [saturate_of_lt hlt]
    exact ⟨by simp, fun _ => ⟨rfl, rfl, rfl, hzs⟩, by simp [hzs], by simp [huf]⟩
  · rwa [saturate_of_le hle]

/-- The result of a working value whose conditions fit it is consistent (rules R25, R83, R98, R104). -/
theorem finish_consistent {w : Working} (h : w.StatusFits) : Consistent (finish w) := by
  have hy := finish_y_toNat w
  have hye : (finish w).ye.toNat = (finish w).y.toNat / 8 % 16 := Outputs.ofResult_ye _ _
  have hyf : (finish w).yf.toNat = (finish w).y.toNat % 8 := Outputs.ofResult_yf _ _
  refine ⟨⟨Outputs.ofResult_ys _ _, hye, hyf⟩, ?_, ?_⟩
  · simp only [StatusLegal, finish_es, finish_ee, finish_ef, finish_sat, finish_zs, finish_uf]
    refine ⟨by simp, ?_, ?_, ?_⟩
    · rintro ⟨hsat, hzs⟩
      obtain ⟨-, -, -, hclear⟩ := h.of_sat hsat
      simp [hclear] at hzs
    · rintro ⟨hsat, huf⟩
      have := h.of_sat hsat
      have := h.of_uf huf
      omega
    · rintro ⟨hzs, huf⟩
      have := h.of_zs hzs
      have := h.of_uf huf
      omega
  · simp only [StatusTellsWord, finish_sat, finish_zs, finish_uf]
    refine ⟨fun hsat => ?_, fun hzs => ?_, fun huf => ?_⟩
    · obtain ⟨hs, he, hf, -⟩ := h.of_sat hsat
      apply BitVec.eq_of_toNat_eq
      rw [hy, hs, he, hf]
      rfl
    · have := h.of_zs hzs
      omega
    · have := h.of_uf huf
      omega

/-- Saturation, rounding and composition of a working value whose conditions fit it: saturation keeps the fit, and the
rounding branch is not taken (rules R80 to R83, R96 to R98). -/
theorem finish_roundStep_saturate_consistent {w : Working} (h : w.StatusFits) :
    Consistent (finish (roundStep (saturate w))) := by
  have hsat : (saturate w).StatusFits := saturate_statusFits h
  rw [roundStep_of_lt hsat.f_lt]
  exact finish_consistent hsat

/-- The exponent of ADD before normalisation is one of the operands' (rule R72). -/
theorem addSum_e_le (a b : Word) : (addSum a b).e ≤ 15 := by
  rw [addSum_eq]
  simp only [unpack_e]
  omega

/-- ADD after both normalisations (rules R76 to R79). -/
theorem addNormalised_statusFits (a b : Word) : (addNormalised a b).StatusFits := by
  have hclear : (addSum a b).sat = false ∧ (addSum a b).zs = false ∧ (addSum a b).uf = false := by
    simp [addSum_eq]
  obtain ⟨hsat, hzs, huf⟩ := hclear
  refine normaliseLeft_statusFits (normaliseRight_f_lt _) (fun h0 => ?_) (by simpa) (by simpa) (by simpa)
  rw [normaliseRight_eq_of_f_eq_zero h0]
  exact addSum_e_le a b

/-- MUL after right normalisation, which sets no condition (rules R93, R94). -/
theorem mulNormalised_statusFits (a b : Word) : (mulNormalised a b).StatusFits :=
  .of_clear (normaliseRight_f_lt _) (by simp [mulNormalised, mulProduct]) (by simp [mulNormalised, mulProduct])
    (by simp [mulNormalised, mulProduct])

end Sys2Proof.Machine
end

