-- ==== Sys2Proof/Proofs/Outputs.lean ====
section
/-!
PROOF. The outputs of each operation: their fields, their status, and the invariant of the machine (rules R25, R27,
R104).
-/

namespace Sys2Proof.Machine

open Sys2Proof.Safety

/-- Without SAT, ZS and UF a result bundle is consistent: the status says nothing of the word. -/
theorem Outputs.ofResult_consistent {y : Word} {c : Status} (hsat : c.sat = false) (hzs : c.zs = false)
    (huf : c.uf = false) : Consistent (Outputs.ofResult y c) := by
  refine ⟨⟨Outputs.ofResult_ys y c, Outputs.ofResult_ye y c, Outputs.ofResult_yf y c⟩, ?_, ?_⟩
  · simp [StatusLegal, hsat, hzs, huf]
  · simp [StatusTellsWord, hsat, hzs, huf]

/-- Every instruction ends with consistent outputs. -/
theorem execOutputs_consistent (i : Instr) : Consistent (execOutputs i) := by
  cases i with
  | unpack a => exact Outputs.ofResult_consistent rfl rfl rfl
  | pack ps pe pf => exact Outputs.ofResult_consistent rfl rfl rfl
  | add a b => exact finish_roundStep_saturate_consistent (addNormalised_statusFits a b)
  | mul a b => exact finish_roundStep_saturate_consistent (mulNormalised_statusFits a b)

/-- Settles O51: a step samples the consistent outputs of an instruction, or draws the next free value. -/
theorem stepKeepsOutputInv : Obligations.StepKeepsOutputInv := by
  intro s t _ hstep
  rcases step_cases s with ⟨i, -, -, hi⟩ | ⟨-, hfree⟩
  · obtain rfl : s.sample (execOutputs i) = t := by simpa [hi] using hstep
    exact .inl (execOutputs_consistent i)
  · obtain rfl : s.sampleAny = t := by simpa [hfree] using hstep
    exact .inr ⟨s.draws, by simp, rfl⟩

/-- Settles O23: every instruction's outputs are a bundle made of a word, whose fields they hold. -/
theorem outputFieldsOfY : Obligations.OutputFieldsOfY := by
  intro i s
  obtain ⟨y, c, hi⟩ := execOutputs_eq_ofResult i
  refine ⟨Outputs.ofResult y c, hi ▸ exec_eq i s, rfl, rfl, rfl, ?_, ?_, ?_⟩
  · simp [Outputs.ofResult_ys]
  · simp [Outputs.ofResult_ye]
  · simp [Outputs.ofResult_yf]

/-- PACK with each field just out of range, or 0, as asked (rule R63). -/
theorem packOutputs_status_bits (x y z : Bool) : ∃ ps pe pf,
    (packOutputs ps pe pf).es = x ∧ (packOutputs ps pe pf).ee = y ∧ (packOutputs ps pe pf).ef = z := by
  refine ⟨if x then 2 else 0, if y then 16 else 0, if z then 8 else 0, ?_, ?_, ?_⟩
  · cases x <;> simp [packOutputs]
  · cases y <;> simp [packOutputs]
  · cases z <;> simp [packOutputs]

/-- Settles O24: UNPACK's status is the empty one, PACK's is its validation, ADD's fits its working value, and MUL has
no step that sets ZS or UF. -/
theorem statusBitsByOperation : Obligations.StatusBitsByOperation := by
  refine ⟨fun s a => ⟨_, exec_eq _ s, rfl⟩, fun s ps pe pf => ⟨_, exec_eq _ s, ?_⟩, fun s x y z => ?_,
    fun s a b => ⟨_, exec_eq _ s, ?_⟩, fun s a b => ⟨_, exec_eq _ s, ?_⟩⟩
  · simp [execOutputs, packOutputs]
  · obtain ⟨ps, pe, pf, hbits⟩ := packOutputs_status_bits x y z
    exact ⟨ps, pe, pf, _, exec_eq _ s, hbits⟩
  · obtain ⟨-, hlegal, -⟩ := execOutputs_consistent (.add a b)
    exact ⟨finish_es _, finish_ee _, finish_ef _, hlegal⟩
  · simp [execOutputs, mulOutputs, mulNormalised, mulProduct]

end Sys2Proof.Machine
end

