-- ==== Sys2Proof/Proofs/Resample.lean ====
section
/-!
PROOF. Sampling again: the outputs sampled before have no part in a step (rules R17, R28, R36).
-/

namespace Sys2Proof.Machine

/-- The outputs sampled before have no part in a step of settled inputs: its instruction overwrites them unread
(rules R17, R28). -/
theorem step_sample_of_ready {s : State} (hready : s.ready = true) (o : Outputs) : step (s.sample o) = step s := by
  obtain ⟨o', hexec⟩ := exec_samples (decode s.inp.vector)
  simp only [step, State.sample_fetch, State.fetch_of_ready hready, hexec, State.sample_sample]

/-- Settles O14: a step of settled inputs only samples outputs, and these have no part in the next step. -/
theorem stepIdempotent : Obligations.StepIdempotent := by
  intro s t hready hstep
  rcases step_cases s with ⟨i, -, -, hi⟩ | ⟨hnot, -⟩
  · obtain rfl : s.sample (execOutputs i) = t := by simpa [hi] using hstep
    exact (step_sample_of_ready hready _).trans hstep
  · simp [hready] at hnot

end Sys2Proof.Machine
end

