-- ==== Sys2Proof/Proofs/Encoding.lean ====
section
/-!
PROOF. The operation vector: its fields and its number (rule R44), what decoding and encoding do to each other (rules
R45, R47, R51), the canonical vector (rule R48), and the assembler's lines (rules R50, R55).
-/

namespace Sys2Proof.Machine

open Sys2Proof.Safety

/-! ### Fields and numbers -/

/-- The vector of six ports as a number, by the formula of rule R44. -/
theorem OpVec.ofPorts_toNat_eq_or (op : BitVec 2) (a b ps pe pf : Word) :
    (OpVec.ofPorts op a b ps pe pf).toNat =
      ((((op.toNat <<< 40 ||| a.toNat <<< 32) ||| b.toNat <<< 24) ||| ps.toNat <<< 16) ||| pe.toNat <<< 8)
        ||| pf.toNat := by
  simp only [OpVec.ofPorts, BitVec.toNat_append, Nat.shiftLeft_or_distrib, ← Nat.shiftLeft_add]

/-- A vector is made of its six fields (rule R44). -/
theorem OpVec.ofPorts_fields (v : OpVec) :
    OpVec.ofPorts (OpVec.op v) (OpVec.a v) (OpVec.b v) (OpVec.ps v) (OpVec.pe v) (OpVec.pf v) = v := by
  have := v.isLt
  apply BitVec.eq_of_toNat_eq
  simp only [OpVec.ofPorts_toNat, OpVec.op, OpVec.a, OpVec.b, OpVec.ps, OpVec.pe, OpVec.pf, OpVec.field_toNat]
  omega

/-- What lies above bit 39 of a vector is its select code (rule R44). -/
theorem OpVec.toNat_div_two_pow_40 (v : OpVec) : v.toNat / 2 ^ 40 = (OpVec.op v).toNat := by
  have := v.isLt
  rw [OpVec.op, OpVec.field_toNat]
  omega

/-- The code above bit 39 names the operation (rule R45). -/
theorem Select.ofBits_op_of_div {v : OpVec} {c : Select} (h : v.toNat / 2 ^ 40 = c.bits.toNat) :
    Select.ofBits (OpVec.op v) = c := by
  rw [BitVec.eq_of_toNat_eq ((OpVec.toNat_div_two_pow_40 v).symm.trans h), Select.ofBits_bits]

/-- An eight-bit field of a vector is cut out of its number. -/
theorem OpVec.field_eq_ofNat (v : OpVec) (k : Nat) :
    v.extractLsb' k 8 = BitVec.ofNat 8 (v.toNat / 2 ^ k) := by
  rw [← Nat.shiftRight_eq_div_pow]
  rfl

/-! ### Decoding -/

/-- Each operand is read back from the field it was put in (rules R45, R46). -/
theorem decode_encode (i : Instr) : decode (encode i) = i := by
  cases i <;> simp only [decode, encode, OpVec.fields_ofPorts, Select.ofBits_bits]

/-- Settles O4: no constructor's operands are checked, and each is read back. -/
theorem decodeOfEncode : Obligations.DecodeOfEncode :=
  fun i => ⟨by cases i <;> rfl, decode_encode i⟩

/-- Settles O2: the code above bit 39 names the operation, whose operands are fields of the number. -/
theorem selectCodesDecode : Obligations.SelectCodesDecode := by
  intro v
  refine ⟨fun h => ?_, fun h => ?_, fun h => ?_, fun h => ?_⟩
  · simp only [decode, Select.ofBits_op_of_div (c := .unpack) h, OpVec.a, OpVec.field_eq_ofNat]
  · simp only [decode, Select.ofBits_op_of_div (c := .pack) h, OpVec.ps, OpVec.pe, OpVec.pf, OpVec.field_eq_ofNat]
  · simp only [decode, Select.ofBits_op_of_div (c := .add) h, OpVec.a, OpVec.b, OpVec.field_eq_ofNat]
  · simp only [decode, Select.ofBits_op_of_div (c := .mul) h, OpVec.a, OpVec.b, OpVec.field_eq_ofNat]

/-- Settles O1: six fixed numbers, decoded by evaluation. -/
theorem specVectorsDecode : Obligations.SpecVectorsDecode := by
  unfold Obligations.SpecVectorsDecode
  decide

theorem decodeNumber_of_lt {n : Nat} (h : n < 2 ^ 42) : decodeNumber n = .ok (decode (BitVec.ofNat 42 n)) :=
  if_pos h

theorem decodeNumber_of_le {n : Nat} (h : 2 ^ 42 ≤ n) : decodeNumber n = .error (.moreThan42Bits n) :=
  if_neg (Nat.not_lt.mpr h)

/-- Settles O7: a number below `2^42` is decoded and never refused, one from there on refused and never decoded. -/
theorem numbersDecodedAreVectors : Obligations.NumbersDecodedAreVectors := by
  intro n
  rcases Nat.lt_or_ge n (2 ^ 42) with hlt | hge
  · simpa [decodeNumber_of_lt hlt] using hlt
  · simpa [decodeNumber_of_le hge] using hge

/-! ### The canonical vector -/

/-- The bits an operation reads, port by port (rule R46). -/
def Select.readMask : Select → OpVec
  | .unpack => OpVec.ofPorts (.allOnes 2) (.allOnes 8) 0 0 0 0
  | .pack => OpVec.ofPorts (.allOnes 2) 0 0 (.allOnes 8) (.allOnes 8) (.allOnes 8)
  | .add => OpVec.ofPorts (.allOnes 2) (.allOnes 8) (.allOnes 8) 0 0 0
  | .mul => OpVec.ofPorts (.allOnes 2) (.allOnes 8) (.allOnes 8) 0 0 0

/-- The bits a vector's operation reads depend on its code only. -/
theorem readMask_eq (v : OpVec) : readMask v = Select.readMask (Select.ofBits (OpVec.op v)) := by
  have hcode : ∀ c : Select, v.toNat / 2 ^ 40 = c.bits.toNat → readMask v = Select.readMask c := by
    intro c h
    rw [readMask, h]
    cases c <;> rfl
  apply hcode
  rw [Select.bits_ofBits, OpVec.toNat_div_two_pow_40]

/-- Masking a vector masks each port by itself. -/
theorem OpVec.ofPorts_and (op op' : BitVec 2) (a a' b b' ps ps' pe pe' pf pf' : Word) :
    OpVec.ofPorts op a b ps pe pf &&& OpVec.ofPorts op' a' b' ps' pe' pf' =
      OpVec.ofPorts (op &&& op') (a &&& a') (b &&& b') (ps &&& ps') (pe &&& pe') (pf &&& pf') := by
  refine BitVec.eq_of_getLsbD_eq fun k _ => ?_
  simp only [BitVec.getLsbD_and, OpVec.ofPorts_getLsbD]
  split_ifs <;> rfl

/-- The canonical vector is the encoding of what the vector decodes to (rules R48, R51): the mask keeps `op` and the
fields that are operands, and clears the others. -/
theorem encode_decode (v : OpVec) : encode (decode v) = canonical v := by
  have hbits : (Select.ofBits (OpVec.op v)).bits = OpVec.op v := Select.bits_ofBits _
  have hcanonical : canonical v =
      OpVec.ofPorts (OpVec.op v) (OpVec.a v) (OpVec.b v) (OpVec.ps v) (OpVec.pe v) (OpVec.pf v)
        &&& Select.readMask (Select.ofBits (OpVec.op v)) := by
    rw [OpVec.ofPorts_fields, ← readMask_eq, canonical]
  rw [hcanonical]
  cases hsel : Select.ofBits (OpVec.op v) <;> rw [hsel] at hbits <;>
    simp only [decode, hsel, encode, hbits, Select.readMask, OpVec.ofPorts_and, BitVec.and_allOnes,
      BitVec.ofNat_eq_ofNat, BitVec.and_zero]

@[simp] theorem decode_canonical (v : OpVec) : decode (canonical v) = decode v := by
  rw [← encode_decode, decode_encode]

/-! ### Lines -/

/-- A word written as a literal stands for the word (rule R50). -/
theorem Operand.resolve_lit_toNat (env : Results) (w : Word) : (Operand.lit w.toNat).resolve env = .ok w := by
  rw [Operand.resolve, if_pos w.isLt, BitVec.ofNat_toNat, BitVec.setWidth_eq]

/-- The disassembled line assembles to the instruction the vector decodes to (rule R55). -/
theorem assemble_disassemble (v : OpVec) (env : Results) : (disassemble v).assemble env = .ok (decode v) := by
  cases h : decode v <;> simp only [disassemble, h, Line.assemble, Operand.ofWord, Operand.resolve_lit_toNat] <;> rfl

/-- Settles O5: the line assembles to the decoded instruction, whose encoding is the canonical vector; and a line
depends on its vector through the decoded instruction only. -/
theorem assembleOfDisassemble : Obligations.AssembleOfDisassemble := by
  intro v env
  refine ⟨⟨decode v, assemble_disassemble v env, encode_decode v⟩, ?_⟩
  simp only [disassemble, decode_canonical]

theorem exists_word_toNat_eq {n : Nat} (h : n < 256) : ∃ w : Word, w.toNat = n := ⟨.ofNatLT n h, rfl⟩

/-- Settles O3: the literals are words, and the ports of an encoding that are 0 drop out of the formula of rule R44. -/
theorem lineEncodingFormulas : Obligations.LineEncodingFormulas := by
  refine ⟨fun env x y z hx hy hz => ?_, by decide⟩
  obtain ⟨x, rfl⟩ := exists_word_toNat_eq hx
  obtain ⟨y, rfl⟩ := exists_word_toNat_eq hy
  obtain ⟨z, rfl⟩ := exists_word_toNat_eq hz
  refine ⟨⟨.unpack x, ?_, ?_⟩, ⟨.pack x y z, ?_, ?_⟩, ⟨.add x y, ?_, ?_⟩, ⟨.mul x y, ?_, ?_⟩⟩
  case refine_1 | refine_3 | refine_5 | refine_7 => simp only [Line.assemble, Operand.resolve_lit_toNat]; rfl
  case refine_2 | refine_4 | refine_6 | refine_8 => simp [encode, OpVec.ofPorts_toNat_eq_or, Select.bits]

/-! ### Words -/

/-- Settles O21: the shifts and masks are the definition; as a number each is its slice of the word. -/
theorem unpackTakesFields : Obligations.UnpackTakesFields := fun w =>
  ⟨rfl, (unpack_s w).trans (Outputs.ofResult_ys w {}).symm, rfl, (unpack_e w).trans (Outputs.ofResult_ye w {}).symm,
    rfl, (unpack_f w).trans (Outputs.ofResult_yf w {}).symm⟩

/-- Fields that fit lie side by side, so joining their bits adds their weights (rule R43). -/
theorem fields_or_eq_add {s e f : Nat} (he : e ≤ 15) (hf : f ≤ 7) :
    (s <<< 7 ||| e <<< 3) ||| f = s * 128 + e * 8 + f := by
  calc (s <<< 7 ||| e <<< 3) ||| f
      = (s <<< 4 ||| e) <<< 3 ||| f := by rw [Nat.shiftLeft_or_distrib, ← Nat.shiftLeft_add]
    _ = (s <<< 4 + e) <<< 3 + f := by
        rw [← Nat.shiftLeft_add_eq_or_of_lt (by omega : e < 2 ^ 4), ← Nat.shiftLeft_add_eq_or_of_lt (by omega)]
    _ = s * 128 + e * 8 + f := by simp only [Nat.shiftLeft_eq]; omega

/-- Settles O22: the word as a number is the sum of the cut fields' weights. -/
theorem packWordCutsFields : Obligations.PackWordCutsFields := by
  intro s e f
  refine ⟨packWord_toNat s e f, fun hs he hf => ?_, ?_⟩
  · rw [fields_or_eq_add he hf, packWord_toNat]
    omega
  · apply BitVec.eq_of_toNat_eq
    simp only [packWord_toNat, Nat.mod_mod]

end Sys2Proof.Machine
end

