-- ==== Sys2Proof/Proofs/VectorSteps.lean ====
section
/-!
PROOF. Steps of a vector placed on the ports (rules R44, R45, R48).
-/

namespace Sys2Proof.Machine

open Sys2Proof.Safety

/-- Settles O8: this is the step's own definition. -/
theorem stepRunsDecoded : Obligations.StepRunsDecoded := by
  intro s v hfetch
  simp only [step, hfetch]

/-- Settles O9: all ports driven, the vector is made of exactly these six. -/
theorem vectorOfPorts : Obligations.VectorOfPorts := by
  intro s op a b ps pe pf hst hinp
  have hready : s.ready = true := by
    refine s.ready_iff.mpr ⟨hst, ?_⟩
    simp only [hinp, Inputs.driven]
    cases Select.ofBits op <;> rfl
  refine ⟨_, State.fetch_of_ready hready, ?_⟩
  rw [hinp]
  exact OpVec.ofPorts_toNat_eq_or op a b ps pe pf

/-- The vector read off ports that hold a vector's fields is that vector. -/
@[simp] theorem Inputs.vector_ofVector (v : OpVec) : (Inputs.ofVector v).vector = v := OpVec.ofPorts_fields v

/-- A step of stable ports that hold a vector runs the instruction it decodes to. -/
theorem step_of_inp_ofVector {s : State} {v : OpVec} (hst : s.stable = true) (hinp : s.inp = Inputs.ofVector v) :
    step s = exec (decode v) s := by
  have hready : s.ready = true := s.ready_iff.mpr ⟨hst, by rw [hinp, Inputs.ofVector_driven]⟩
  refine stepRunsDecoded s v ?_
  rw [State.fetch_of_ready hready, hinp, Inputs.vector_ofVector]

/-- Evaluating a vector samples the outputs of its instruction (rules R120, R121). -/
theorem State.evaluate_eq (s : State) (v : OpVec) :
    s.evaluate v = .next ((s.drive (Inputs.ofVector v)).settle.sample (execOutputs (decode v))) :=
  (step_of_inp_ofVector rfl rfl).trans (exec_eq _ _)

/-- Settles O6: a vector and its canonical one decode to the same instruction. -/
theorem noncanonicalSameOutputs : Obligations.NoncanonicalSameOutputs := by
  intro s v
  refine ⟨_, _, s.evaluate_eq v, s.evaluate_eq (canonical v), ?_⟩
  simp only [State.sample_out, decode_canonical]

/-- A table word that decodes to an instruction decodes to it as the vector of its low bits. -/
theorem decode_of_decodeTableWord {nbits w : Nat} {i : Instr} (h : decodeTableWord nbits w = some i) :
    decode (BitVec.ofNat 42 (w % 2 ^ nbits)) = i := by
  rcases Nat.lt_or_ge (w % 2 ^ nbits) (2 ^ 42) with hlt | hge
  · simpa [decodeTableWord, decodeNumber_of_lt hlt] using h
  · simp [decodeTableWord, decodeNumber_of_le hge] at h

/-- Settles O18: the placed word's vector stands on stable ports, and decodes to the instruction. -/
theorem placedWordRuns : Obligations.PlacedWordRuns := by
  intro s nbits w i h
  rw [step_of_inp_ofVector (State.withFetchWord_stable s nbits w) (State.withFetchWord_inp s nbits w),
    decode_of_decodeTableWord h]

end Sys2Proof.Machine
end

