-- ==== Sys2Proof/Proofs/Codec.lean ====
section
/-!
PROOF. UNPACK and PACK (rules R56, R61): the word of given fields has these fields, the fields of a word make that word,
and so each operation undoes the other (rules R58, R59).
-/

namespace Sys2Proof.Machine

open Sys2Proof.Safety

/-! ### Results and fields -/

/-- Composing the fields of a word gives the word (rules R42, R43). -/
theorem packWord_of_coherent {o : Outputs} (h : Coherent o) :
    packWord o.ys.toNat o.ye.toNat o.yf.toNat = o.y := by
  obtain ⟨hs, he, hf⟩ := h
  have := o.y.isLt
  apply BitVec.eq_of_toNat_eq
  rw [packWord_toNat, hs, he, hf]
  omega

/-- Fields that fit their widths are the fields of the word composed of them (rules R43, R59). -/
theorem Outputs.ofResult_packWord_fields {s e f : Nat} (h : FieldsFit s e f) (c : Status) :
    (Outputs.ofResult (packWord s e f) c).ys.toNat = s ∧
      (Outputs.ofResult (packWord s e f) c).ye.toNat = e ∧
      (Outputs.ofResult (packWord s e f) c).yf.toNat = f := by
  obtain ⟨hs : s ≤ 1, he : e ≤ 15, hf : f ≤ 7⟩ := h
  rw [Outputs.ofResult_ys, Outputs.ofResult_ye, Outputs.ofResult_yf, packWord_toNat]
  omega

/-- Every sampled output fits the width of its field, whatever it was sampled from (rules R25, R57). -/
theorem Outputs.fields_fit (o : Outputs) : FieldsFit o.ys.toNat o.ye.toNat o.yf.toNat :=
  ⟨Nat.le_of_lt_succ o.ys.isLt, Nat.le_of_lt_succ o.ye.isLt, Nat.le_of_lt_succ o.yf.isLt⟩

/-! ### PACK of fields in range -/

/-- Validation finds nothing to report in fields that fit (rules R61, R63, R66). -/
theorem validate_of_fit {ps pe pf : Word} (h : FieldsFit ps.toNat pe.toNat pf.toNat) : validate ps pe pf = {} := by
  obtain ⟨hs, he, hf⟩ := h
  simp only [validate, decide_eq_false (Nat.not_lt.mpr hs), decide_eq_false (Nat.not_lt.mpr he),
    decide_eq_false (Nat.not_lt.mpr hf)]

/-- PACK of the zero-extended fields of a word gives the word, with status 0: they fit, so validation reports nothing
(rules R52, R61, R66). -/
theorem packOutputs_of_coherent {o : Outputs} (h : Coherent o) :
    packOutputs (o.ys.setWidth 8) (o.ye.setWidth 8) (o.yf.setWidth 8) = Outputs.ofResult o.y {} := by
  have hs : (o.ys.setWidth 8).toNat = o.ys.toNat := BitVec.toNat_setWidth_of_le (by decide)
  have he : (o.ye.setWidth 8).toNat = o.ye.toNat := BitVec.toNat_setWidth_of_le (by decide)
  have hf : (o.yf.setWidth 8).toNat = o.yf.toNat := BitVec.toNat_setWidth_of_le (by decide)
  have hvalid : validate (o.ys.setWidth 8) (o.ye.setWidth 8) (o.yf.setWidth 8) = {} :=
    validate_of_fit (by rw [hs, he, hf]; exact o.fields_fit)
  rw [packOutputs, hvalid, hs, he, hf, packWord_of_coherent h]

/-! ### The obligations -/

/-- Settles O26: the fields UNPACK gives are those of its word, and PACK of such fields gives the word with status 0. -/
theorem packOfUnpack : Obligations.PackOfUnpack := by
  intro s w
  obtain ⟨hcoherent, -, -⟩ := execOutputs_consistent (.unpack w)
  have hpack := packOutputs_of_coherent hcoherent
  exact ⟨_, _, exec_eq _ s, exec_eq _ _, congrArg Outputs.y hpack, congrArg Outputs.st hpack⟩

/-- Settles O27: the fields of the word PACK composes are those it was given, as they fit; UNPACK takes these. -/
theorem unpackOfPack : Obligations.UnpackOfPack := fun s _ _ _ hfit =>
  ⟨_, _, exec_eq _ s, exec_eq _ _, Outputs.ofResult_packWord_fields hfit {}⟩

/-- Settles O25: the fields of the word as a number are the shifts and masks of rule R42, and a field of the encoding
that UNPACK does not read is 0. -/
theorem unpackResult : Obligations.UnpackResult := by
  intro s a
  obtain ⟨hs, hys, he, hye, hf, hyf⟩ := unpackTakesFields a
  refine ⟨⟨_, exec_eq _ s, rfl, hys.symm.trans hs, hye.symm.trans he, hyf.symm.trans hf, rfl⟩, ?_,
    decode_encode _⟩
  simp [encode, OpVec.ofPorts_toNat_eq_or, Select.bits]

end Sys2Proof.Machine
end

