-- ==== Sys2Proof/Proofs/Pack.lean ====
section
/-!
PROOF. PACK of any inputs, in range or not (rules R61 to R67): its word is made of the inputs' low bits, which are
therefore its fields, and its status tells which inputs have other bits.
-/

namespace Sys2Proof.Machine

open Sys2Proof.Safety

/-! ### The word -/

/-- The word PACK composes is the low bits of its inputs side by side (rules R43, R61, R65). -/
theorem packWord_eq_append (ps pe pf : Word) :
    packWord ps.toNat pe.toNat pf.toNat = ps.extractLsb' 0 1 ++ pe.extractLsb' 0 4 ++ pf.extractLsb' 0 3 := by
  apply BitVec.eq_of_toNat_eq
  rw [packWord_toNat, BitVec.toNat_append, BitVec.toNat_append, ← Nat.shiftLeft_add_eq_or_of_lt (BitVec.isLt _),
    ← Nat.shiftLeft_add_eq_or_of_lt (BitVec.isLt _)]
  simp only [BitVec.extractLsb'_toNat, Nat.shiftRight_zero, Nat.shiftLeft_eq]
  omega

/-- Three fields side by side are the fields of the word they make (rules R25, R41). -/
theorem Outputs.ofResult_append (s : BitVec 1) (e : BitVec 4) (f : BitVec 3) (c : Status) :
    Outputs.ofResult (s ++ e ++ f) c = { y := s ++ e ++ f, ys := s, ye := e, yf := f, st := c.word } := by
  have hys : (s ++ e ++ f).extractLsb' 7 1 = s := by
    rw [BitVec.extractLsb'_append_eq_of_le (by decide), BitVec.extractLsb'_append_eq_left]
  have hye : (s ++ e ++ f).extractLsb' 3 4 = e := by
    rw [BitVec.extractLsb'_append_eq_of_le (by decide), BitVec.extractLsb'_append_eq_right]
  have hyf : (s ++ e ++ f).extractLsb' 0 3 = f := BitVec.extractLsb'_append_eq_right
  rw [Outputs.ofResult, hys, hye, hyf]

/-- Everything PACK outputs: the inputs' low bits, as one word and one by one, and the validation (rules R61, R67). -/
theorem packOutputs_eq (ps pe pf : Word) :
    packOutputs ps pe pf =
      { y := ps.extractLsb' 0 1 ++ pe.extractLsb' 0 4 ++ pf.extractLsb' 0 3
        ys := ps.extractLsb' 0 1
        ye := pe.extractLsb' 0 4
        yf := pf.extractLsb' 0 3
        st := (validate ps pe pf).word } := by
  rw [packOutputs, packWord_eq_append, Outputs.ofResult_append]

/-- PACK samples its outputs and changes nothing else. -/
theorem exec_pack (ps pe pf : Word) (s : State) :
    exec (.pack ps pe pf) s = .next { s with out := packOutputs ps pe pf } := exec_eq _ s

/-! ### The validation -/

/-- A word exceeds a mask of `k` low bits exactly when it has a bit outside it (rule R63). -/
theorem and_not_lowMask_ne_zero_iff {n : Nat} (k : Nat) (w : BitVec n) :
    w &&& ~~~BitVec.ofNat n (2 ^ k - 1) ≠ 0#n ↔ 2 ^ k ≤ w.toNat := by
  have hbit (i : Nat) :
      (w &&& ~~~BitVec.ofNat n (2 ^ k - 1)).getLsbD i = (decide (k ≤ i) && w.getLsbD i) := by
    by_cases hi : i < n
    · simp only [BitVec.getLsbD_and, BitVec.getLsbD_not, BitVec.getLsbD_ofNat, Nat.testBit_two_pow_sub_one, hi,
        decide_true, Bool.true_and, Bool.and_comm, ← decide_not, Nat.not_lt]
    · simp [BitVec.getLsbD_of_ge _ i (Nat.le_of_not_lt hi)]
  rw [← Nat.not_lt, not_iff_not]
  constructor
  · intro hzero
    refine Nat.lt_pow_two_of_testBit _ fun i hi => ?_
    simpa [hzero, hi, BitVec.testBit_toNat] using (hbit i).symm
  · intro hlt
    refine BitVec.eq_of_getLsbD_eq fun i _ => ?_
    rw [hbit, BitVec.getLsbD_zero, Bool.and_eq_false_imp]
    exact fun hi => Nat.testBit_lt_two_pow (hlt.trans_le (Nat.pow_le_pow_right (by decide) (of_decide_eq_true hi)))

/-- PACK's status as a number: each field out of range adds the weight of its bit (rules R26, R61). -/
theorem validate_word_toNat (ps pe pf : Word) :
    (validate ps pe pf).word.toNat =
      (if ps.toNat > 0b1 then 1 else 0) + (if pe.toNat > 0b1111 then 2 else 0)
        + (if pf.toNat > 0b111 then 4 else 0) := by
  simp only [Status.word_toNat, validate_es, validate_ee, validate_ef, validate_sat, validate_zs, validate_uf,
    Bool.toNat, Bool.cond_decide]
  split_ifs <;> rfl

/-- The low `k` bits of a number that needs more are another number (rule R67). -/
theorem extractLsb'_zero_toNat_ne {n : Nat} (k : Nat) (w : BitVec n) (h : 2 ^ k ≤ w.toNat) :
    (w.extractLsb' 0 k).toNat ≠ w.toNat :=
  ((w.extractLsb' 0 k).isLt.trans_le h).ne

/-! ### The obligations -/

/-- Settles O28: the composed word and the validation as numbers; the ports PACK does not read are 0 in its encoding. -/
theorem packResult : Obligations.PackResult := by
  intro s ps pe pf
  obtain ⟨hcoherent, -, -⟩ := execOutputs_consistent (.pack ps pe pf)
  refine ⟨⟨_, exec_pack ps pe pf s, packWord_toNat _ _ _, hcoherent, validate_word_toNat ps pe pf⟩, ?_,
    decode_encode _⟩
  simp [encode, OpVec.ofPorts_toNat_eq_or, Select.bits]

/-- Settles O29: the validation compares each field with its mask, which is the same as looking for other bits. -/
theorem packValidationMasks : Obligations.PackValidationMasks := by
  intro s ps pe pf
  have hs : (packOutputs ps pe pf).es = true ↔ ps.toNat > 1 := by simp [packOutputs]
  have he : (packOutputs ps pe pf).ee = true ↔ pe.toNat > 15 := by simp [packOutputs]
  have hf : (packOutputs ps pe pf).ef = true ↔ pf.toNat > 7 := by simp [packOutputs]
  exact ⟨_, exec_pack ps pe pf s,
    hs.trans (and_not_lowMask_ne_zero_iff 1 ps).symm, hs,
    he.trans (and_not_lowMask_ne_zero_iff 4 pe).symm, he,
    hf.trans (and_not_lowMask_ne_zero_iff 3 pf).symm, hf⟩

/-- Settles O30: the bits of a concatenation, part by part. -/
theorem packNoSpill : Obligations.PackNoSpill := by
  intro s ps pe pf
  refine ⟨_, exec_pack ps pe pf s, ?_, fun k hk => ?_, fun k hk => ?_⟩ <;>
    simp only [packOutputs_eq, BitVec.getLsbD_append, BitVec.getLsbD_extractLsb']
  · simp
  · simp [hk]
  · simp [hk]

/-- Settles O31: fields that fit pass the validation and are the fields of the word composed of them. -/
theorem packInRange : Obligations.PackInRange := by
  intro s ps pe pf hs he hf
  have hfit : FieldsFit ps.toNat pe.toNat pf.toNat := ⟨hs, he, hf⟩
  refine ⟨_, exec_pack ps pe pf s, ?_, packWord_eq_append ps pe pf, Outputs.ofResult_packWord_fields hfit _⟩
  rw [packOutputs, Outputs.ofResult_st, validate_of_fit hfit]
  rfl

/-- Settles O32: the fields are the low bits, too few for an input out of range; the example by evaluation. -/
theorem packFieldsAreLowBits : Obligations.PackFieldsAreLowBits := by
  refine ⟨fun s ps pe pf => ⟨_, exec_pack ps pe pf s, ?_⟩, fun s => exec_eq _ s⟩
  rw [packOutputs_eq]
  exact ⟨rfl, rfl, rfl, extractLsb'_zero_toNat_ne 1 ps, extractLsb'_zero_toNat_ne 4 pe,
    extractLsb'_zero_toNat_ne 3 pf⟩

end Sys2Proof.Machine
end

