-- ==== Sys2Proof/Proofs/Normalise.lean ====
section
/-!
PROOF. Normalisation (rules R76 to R79, R93): how far right normalisation shifts, that the sign has no part in it, and
the working value both normalisations of ADD end with, by the significand and the exponent they start from.
-/

namespace Sys2Proof.Machine

/-! ### Right normalisation -/

/-- Settles O50: by strong induction on the significand, one turn of the loop at a time. -/
theorem normaliseRightLeastShift : Obligations.NormaliseRightLeastShift := by
  intro w
  induction hn : w.f using Nat.strong_induction_on generalizing w with
  | h n ih =>
    subst hn
    rcases Nat.lt_or_ge w.f 8 with h8 | h8
    · exact ⟨0, by simp [normaliseRight_of_lt h8], by simpa using h8, by simp⟩
    · obtain ⟨k, hk, hlt, hmin⟩ := ih (w.f / 2) (by omega) { w with f := w.f / 2, e := w.e + 1 } rfl
      have hdiv (j : Nat) : w.f / 2 ^ (j + 1) = w.f / 2 / 2 ^ j := by
        rw [Nat.pow_succ', Nat.div_div_eq_div_mul]
      refine ⟨k + 1, ?_, by rwa [hdiv], fun j hj => ?_⟩
      · simp only [normaliseRight_of_le h8, hk, hdiv, Nat.add_assoc, Nat.add_comm 1 k]
      · cases j with
        | zero => simpa using h8
        | succ j => rw [hdiv]; exact hmin j (by omega)

/-! ### The sign -/

/-- The right loop does not read the sign. -/
theorem normaliseRightLoop_withSign (k : Nat) (w : Working) (t : Nat) :
    normaliseRightLoop k { w with s := t } = { normaliseRightLoop k w with s := t } := by
  induction k generalizing w with
  | zero => rfl
  | succ k ih =>
    rw [normaliseRightLoop, normaliseRightLoop]
    split
    · exact ih { w with f := w.f >>> 1, e := w.e + 1 }
    · rfl

/-- Right normalisation does not read the sign (rules R76, R93). -/
theorem normaliseRight_withSign (w : Working) (t : Nat) :
    normaliseRight { w with s := t } = { normaliseRight w with s := t } :=
  normaliseRightLoop_withSign w.f w t

/-- Left normalisation does not read the sign (rules R77 to R79). -/
theorem normaliseLeft_withSign (w : Working) (t : Nat) :
    normaliseLeft { w with s := t } = { normaliseLeft w with s := t } := by
  unfold normaliseLeft
  split <;> rfl

/-! ### Both normalisations -/

/-- `NormalForm s e n w`: the steps 5a and 5b of ADD, from sign `s`, exponent `e` and significand `n`, end with `w`. One
case for each way through them (rules R76 to R79). -/
inductive NormalForm (s e n : Nat) : Working → Prop
  | zeroSum (hn : n = 0) : NormalForm s e n { s := s, e := e, f := 0, zs := true }
  | rightShift (hlo : 8 ≤ n) (hhi : n < 16) : NormalForm s e n { s := s, e := e + 1, f := n / 2 }
  | noShift (hlo : 4 ≤ n) (hhi : n < 8) : NormalForm s e n { s := s, e := e, f := n }
  | leftShift (hlo : 2 ≤ n) (hhi : n < 4) (he : 1 ≤ e) : NormalForm s e n { s := s, e := e - 1, f := 2 * n }
  | twoLeftShifts (hn : n = 1) (he : 2 ≤ e) : NormalForm s e n { s := s, e := e - 2, f := 4 }
  | clamp (hlo : 1 ≤ n) (hhi : n < 4) (he : e = 0) : NormalForm s e n { s := s, e := 0, f := n, uf := true }
  | leftShiftClamp (hn : n = 1) (he : e = 1) : NormalForm s e n { s := s, e := 0, f := 2, uf := true }

/-- Left normalisation of 1, 2 or 3: it shifts until the significand is 4 or more or the exponent is 0 (rules R77,
R79). -/
theorem normaliseLeft_normalForm {s e n : Nat} (hlo : 1 ≤ n) (hhi : n < 4) :
    NormalForm s e n (normaliseLeft { s := s, e := e, f := n }) := by
  have h0 : n ≠ 0 := by omega
  rcases Nat.eq_zero_or_pos e with rfl | he
  · rw [normaliseLeft_clamp h0 rfl, decide_eq_true hhi]
    exact .clamp hlo hhi rfl
  rw [normaliseLeft_step h0 hhi he.ne']
  rcases Nat.lt_or_ge n 2 with h2 | h2
  · obtain rfl : n = 1 := by omega
    rcases Nat.lt_or_ge e 2 with he2 | he2
    · obtain rfl : e = 1 := by omega
      rw [normaliseLeft_clamp (by simp) rfl]
      exact .leftShiftClamp rfl rfl
    · rw [normaliseLeft_step (by simp) (by simp) (by simp only; omega), normaliseLeft_of_le (by simp)]
      exact .twoLeftShifts rfl he2
  · rw [normaliseLeft_of_le (by simp only; omega)]
    exact .leftShift h2 hhi he

/-- The two normalisations of a significand below 16, which right normalisation shifts at most once (rules R76 to
R79, R85). -/
theorem normalise_normalForm {s e n : Nat} (hn : n < 16) :
    NormalForm s e n (normaliseLeft (normaliseRight { s := s, e := e, f := n })) := by
  rcases Nat.lt_or_ge n 8 with h8 | h8
  · rw [normaliseRight_of_lt h8]
    rcases Nat.lt_or_ge n 4 with h4 | h4
    · rcases Nat.eq_zero_or_pos n with rfl | h0
      · rw [normaliseLeft_zero rfl]
        exact .zeroSum rfl
      · exact normaliseLeft_normalForm h0 h4
    · rw [normaliseLeft_of_le h4]
      exact .noShift h4 h8
  · rw [normaliseRight_of_le h8, normaliseRight_of_lt (by simp only; omega), normaliseLeft_of_le (by simp only; omega)]
    exact .rightShift h8 hn

section NormalForm

variable {s e n : Nat} {w : Working}

theorem NormalForm.sign_eq (h : NormalForm s e n w) : w.s = s := by cases h <;> rfl

theorem NormalForm.sat_eq_false (h : NormalForm s e n w) : w.sat = false := by cases h <;> rfl

theorem NormalForm.exponent_le (h : NormalForm s e n w) : w.e ≤ e + 1 := by cases h <;> simp only <;> omega

/-- ZS is set exactly for a zero sum (rule R78). -/
theorem NormalForm.zs_iff (h : NormalForm s e n w) : w.zs = true ↔ n = 0 := by cases h <;> simp <;> omega

/-- UF is set exactly where the shifts run out of exponent (rule R79). -/
theorem NormalForm.uf_iff (h : NormalForm s e n w) :
    w.uf = true ↔ (1 ≤ n ∧ n ≤ 3) ∧ (e = 0 ∨ (e = 1 ∧ n = 1)) := by
  cases h <;> simp <;> omega

/-- From an exponent in range, only the right shift at exponent 15 leaves the range (rule R80). -/
theorem NormalForm.exponent_gt_iff (h : NormalForm s e n w) (he : e ≤ 15) : 15 < w.e ↔ e = 15 ∧ 8 ≤ n := by
  cases h <;> simp only <;> omega

/-- The clamp leaves exponent 0 and the significand as it is there (rule R79). -/
theorem NormalForm.of_uf (h : NormalForm s e n w) (huf : w.uf = true) :
    w.e = 0 ∧ w.f = if e = 0 then n else 2 := by
  cases h with
  | clamp _ _ he => exact ⟨rfl, (if_pos he).symm⟩
  | leftShiftClamp _ he => exact ⟨rfl, (if_neg (by omega)).symm⟩
  | _ => simp at huf

/-- Without ZS and UF the significand is normalised (rule R77). -/
theorem NormalForm.significand_ge (h : NormalForm s e n w) (hzs : w.zs = false) (huf : w.uf = false) : 4 ≤ w.f := by
  cases h with
  | zeroSum => simp at hzs
  | clamp | leftShiftClamp => simp at huf
  | _ => simp only; omega

end NormalForm

end Sys2Proof.Machine
end

