-- ==== Sys2Proof/Proofs/Add.lean ====
section
/-!
PROOF. ADD (rules R70 to R85): the aligned sum and the common exponent, the outputs by the working value after step 5,
and the obligations, which read both off the ways through step 5.
-/

namespace Sys2Proof.Machine

open Sys2Proof.Safety

/-! ### Fields of a word -/

theorem signOf_lt_two (w : Word) : signOf w < 2 := by
  have := w.isLt
  unfold signOf
  omega

theorem expOf_le (w : Word) : expOf w ≤ 15 := by
  unfold expOf
  omega

theorem sigOf_lt_eight (w : Word) : sigOf w < 8 := Nat.mod_lt _ (Nat.succ_pos 7)

/-- Bit 7 of a word is its sign (rule R41). -/
theorem getLsbD_seven (w : Word) : w.getLsbD 7 = decide (signOf w = 1) := by
  have hmod : signOf w % 2 = signOf w := Nat.mod_eq_of_lt (signOf_lt_two w)
  rw [BitVec.getLsbD, Nat.testBit_eq_decide_div_mod_eq, ← hmod]
  rfl

theorem getLsbD_seven_eq_iff (a b : Word) : a.getLsbD 7 = b.getLsbD 7 ↔ signOf a = signOf b := by
  have := signOf_lt_two a
  have := signOf_lt_two b
  rw [getLsbD_seven, getLsbD_seven, decide_eq_decide]
  omega

/-- Flipping bit 7 of a word leaves the bits below it. -/
theorem xor_signBit_toNat_mod (w : Word) : (w ^^^ 0x80#8).toNat % 2 ^ 7 = w.toNat % 2 ^ 7 := by
  rw [BitVec.toNat_xor, Nat.xor_mod_two_pow]
  exact Nat.xor_zero _

theorem expOf_xor_signBit (w : Word) : expOf (w ^^^ 0x80#8) = expOf w := by
  have := xor_signBit_toNat_mod w
  unfold expOf
  omega

theorem sigOf_xor_signBit (w : Word) : sigOf (w ^^^ 0x80#8) = sigOf w := by
  have := xor_signBit_toNat_mod w
  unfold sigOf
  omega

/-! ### The aligned sum -/

theorem commonExp_le (a b : Word) : commonExp a b ≤ 15 := Nat.max_le.mpr ⟨expOf_le a, expOf_le b⟩

theorem commonExp_comm (a b : Word) : commonExp a b = commonExp b a := Nat.max_comm _ _

theorem alignedSum_comm (a b : Word) : alignedSum a b = alignedSum b a := by
  rw [alignedSum, alignedSum, commonExp_comm, Nat.add_comm]

theorem alignedSum_le (a b : Word) : alignedSum a b ≤ 14 := by
  have ha := Nat.div_le_self (sigOf a) (2 ^ (commonExp a b - expOf a))
  have hb := Nat.div_le_self (sigOf b) (2 ^ (commonExp a b - expOf b))
  have := sigOf_lt_eight a
  have := sigOf_lt_eight b
  unfold alignedSum
  omega

/-- Alignment of two words by their fields (rule R72). -/
theorem align_unpack (a b : Word) :
    align (unpack a) (unpack b) =
      (sigOf a / 2 ^ (commonExp a b - expOf a), sigOf b / 2 ^ (commonExp a b - expOf b), commonExp a b) := by
  simp only [align_eq, unpack_e, unpack_f]
  rfl

/-- Steps 1 to 4 of ADD by the fields of the words (rules R71 to R75). -/
theorem addSum_eq_alignedSum (a b : Word) :
    addSum a b = { s := signOf a, e := commonExp a b, f := alignedSum a b } := by
  simp only [addSum_eq, unpack_s, unpack_e, unpack_f]
  rfl

/-- Three significand bits shifted by 3 or more leave nothing (rule R72). -/
theorem sigOf_div_eq_zero (w : Word) {d : Nat} (hd : 3 ≤ d) : sigOf w / 2 ^ d = 0 :=
  Nat.div_eq_of_lt ((sigOf_lt_eight w).trans_le (Nat.pow_le_pow_right (n := 2) Nat.two_pos hd))

/-! ### Step 5 and the outputs -/

/-- ADD after step 5 (rules R76 to R79). -/
theorem addNormalised_normalForm (a b : Word) :
    NormalForm (signOf a) (commonExp a b) (alignedSum a b) (addNormalised a b) := by
  rw [addNormalised, addSum_eq_alignedSum]
  exact normalise_normalForm (Nat.lt_of_le_of_lt (alignedSum_le a b) (by decide))

/-- Swapping the operands changes the sign only (rules R72, R74, R75). -/
theorem addNormalised_swap {a b : Word} {w : Working} (h : addNormalised a b = w) :
    addNormalised b a = { w with s := signOf b } := by
  subst h
  simp only [addNormalised, addSum_eq_alignedSum, ← normaliseLeft_withSign, ← normaliseRight_withSign,
    commonExp_comm b a, alignedSum_comm b a]

/-- Words of the same sign are added in either order (rules R74, R84). -/
theorem addOutputs_comm_of_signOf_eq {a b : Word} (h : signOf a = signOf b) : addOutputs a b = addOutputs b a := by
  simp only [addOutputs, addNormalised, addSum_eq_alignedSum, h, commonExp_comm b a, alignedSum_comm b a]

/-- Flipping the sign of the second operand changes nothing (rule R74). -/
theorem addOutputs_xor_signBit (a b : Word) : addOutputs a (b ^^^ 0x80#8) = addOutputs a b := by
  simp only [addOutputs, addNormalised, addSum_eq_alignedSum, alignedSum, commonExp, expOf_xor_signBit,
    sigOf_xor_signBit]

/-- ADD samples its outputs and changes nothing else. -/
theorem exec_add (a b : Word) (s : State) : exec (.add a b) s = .next { s with out := addOutputs a b } := exec_eq _ s

/-- The significand after saturation is below 8, so ADD does not round (rules R80, R82). -/
theorem saturate_addNormalised_f_lt (a b : Word) : (saturate (addNormalised a b)).f < 8 :=
  (saturate_statusFits (addNormalised_statusFits a b)).f_lt

theorem addOutputs_eq (a b : Word) : addOutputs a b = finish (saturate (addNormalised a b)) := by
  rw [addOutputs, roundStep_of_lt (saturate_addNormalised_f_lt a b)]

/-- With the exponent in range the working value is composed as it is (rules R80, R83). -/
theorem addOutputs_of_le {a b : Word} (he : (addNormalised a b).e ≤ 15) :
    addOutputs a b = finish (addNormalised a b) := by
  rw [addOutputs_eq, saturate_of_le he]

/-- With the exponent in range the output fields are the working value's (rules R80, R83). -/
theorem addOutputs_fields_of_le {a b : Word} (he : (addNormalised a b).e ≤ 15) :
    (addOutputs a b).ys.toNat = signOf a ∧ (addOutputs a b).ye.toNat = (addNormalised a b).e ∧
      (addOutputs a b).yf.toNat = (addNormalised a b).f := by
  have hs : (addNormalised a b).s = signOf a := (addNormalised_normalForm a b).sign_eq
  have hfit : FieldsFit (addNormalised a b).s (addNormalised a b).e (addNormalised a b).f :=
    ⟨hs ▸ Nat.le_of_lt_succ (signOf_lt_two a), he, Nat.le_of_lt_succ (addNormalised_statusFits a b).f_lt⟩
  rw [addOutputs_of_le he, ← hs]
  exact Outputs.ofResult_packWord_fields hfit _

@[simp] theorem addOutputs_zs (a b : Word) : (addOutputs a b).zs = (addNormalised a b).zs := by simp [addOutputs_eq]

@[simp] theorem addOutputs_uf (a b : Word) : (addOutputs a b).uf = (addNormalised a b).uf := by simp [addOutputs_eq]

/-- SAT is set exactly by the saturation step (rule R80). -/
theorem addOutputs_sat_iff (a b : Word) : (addOutputs a b).sat = true ↔ 15 < (addNormalised a b).e := by
  have hclear : (addNormalised a b).sat = false := (addNormalised_normalForm a b).sat_eq_false
  rw [addOutputs_eq, finish_sat]
  rcases Nat.lt_or_ge 15 (addNormalised a b).e with hlt | hle
  · simp [saturate_of_lt hlt, hlt]
  · simp [saturate_of_le hle, hclear, hle]

/-- SAT by the aligned sum and the common exponent (rule R80). -/
theorem addOutputs_sat_iff_carry (a b : Word) :
    (addOutputs a b).sat = true ↔ commonExp a b = 15 ∧ 8 ≤ alignedSum a b :=
  (addOutputs_sat_iff a b).trans ((addNormalised_normalForm a b).exponent_gt_iff (commonExp_le a b))

/-- Without SAT the exponent after step 5 is in range (rule R80). -/
theorem addNormalised_e_le {a b : Word} (h : (addOutputs a b).sat = false) : (addNormalised a b).e ≤ 15 := by
  rw [← Nat.not_lt, ← addOutputs_sat_iff, h]
  decide

/-- The saturated result is the word `0x78` and its fields (rule R80). -/
theorem addOutputs_of_sat {a b : Word} (h : (addOutputs a b).sat = true) :
    (addOutputs a b).y = 0x78#8 ∧ (addOutputs a b).ys = 0 ∧ (addOutputs a b).ye = 0b1111#4 ∧
      (addOutputs a b).yf = 0 := by
  obtain ⟨-, -, hsat, -⟩ := execOutputs_consistent (.add a b)
  have hy : (addOutputs a b).y = 0x78#8 := hsat h
  have hfields : (addOutputs a b).ys = (addOutputs a b).y.extractLsb' 7 1 ∧
      (addOutputs a b).ye = (addOutputs a b).y.extractLsb' 3 4 ∧
      (addOutputs a b).yf = (addOutputs a b).y.extractLsb' 0 3 := ⟨rfl, rfl, rfl⟩
  rw [hy] at hfields
  exact ⟨hy, hfields⟩

/-- Without SAT bit 7 of the result is the first operand's (rules R74, R83). -/
theorem addOutputs_getLsbD_seven {a b : Word} (h : (addOutputs a b).sat = false) :
    (addOutputs a b).y.getLsbD 7 = a.getLsbD 7 := by
  obtain ⟨hys, -⟩ := addOutputs_fields_of_le (addNormalised_e_le h)
  obtain ⟨⟨hcoherent, -⟩, -⟩ := execOutputs_consistent (.add a b)
  exact (getLsbD_seven_eq_iff _ a).mpr (hcoherent.symm.trans hys)

/-! ### The closed form -/

/-- Saturated: the word `0x78`, and SAT alone, since ZS and UF keep the exponent in range (rules R78 to R80). -/
theorem addOutputs_toNat_of_sat {a b : Word} (h : (addOutputs a b).sat = true) :
    ((addOutputs a b).y.toNat, (addOutputs a b).st.toNat) = (0x78, 8) := by
  have hlt := (addOutputs_sat_iff a b).mp h
  have hfit := addNormalised_statusFits a b
  have hzs : (addNormalised a b).zs = false := Bool.eq_false_iff.mpr fun h => absurd (hfit.of_zs h).1 (by omega)
  have huf : (addNormalised a b).uf = false := Bool.eq_false_iff.mpr fun h => absurd (hfit.of_uf h).1 (by omega)
  rw [(addOutputs_of_sat h).1, addOutputs_eq, saturate_of_lt hlt, finish_st_toNat, hzs, huf]
  rfl

/-- Not saturated: the working value after step 5, field by field (rule R83). -/
theorem addOutputs_toNat_of_le {a b : Word} (he : (addNormalised a b).e ≤ 15) :
    ((addOutputs a b).y.toNat, (addOutputs a b).st.toNat) =
      (128 * (addNormalised a b).s + 8 * (addNormalised a b).e + (addNormalised a b).f,
        16 * (addNormalised a b).zs.toNat + 32 * (addNormalised a b).uf.toNat) := by
  have hs : (addNormalised a b).s < 2 := (addNormalised_normalForm a b).sign_eq ▸ signOf_lt_two a
  have hf := (addNormalised_statusFits a b).f_lt
  rw [addOutputs_of_le he, finish_y_toNat, finish_st_toNat, (addNormalised_normalForm a b).sat_eq_false,
    Prod.mk.injEq, Bool.toNat_false]
  omega

theorem addClosed_of_carry {a b : Word} (he : commonExp a b = 15) (hn : 8 ≤ alignedSum a b) :
    addClosed a b = (0x78, 8) := by
  rw [addClosed, if_neg (by omega), if_pos hn, if_pos he]

/-- The closed form in each of the ways through step 5 that end with the exponent in range. -/
theorem addClosed_of_normalForm {a b : Word} {w : Working}
    (h : NormalForm (signOf a) (commonExp a b) (alignedSum a b) w) (hrange : w.e ≤ 15) :
    addClosed a b = (128 * w.s + 8 * w.e + w.f, 16 * w.zs.toNat + 32 * w.uf.toNat) := by
  rw [addClosed]
  generalize alignedSum a b = n at h
  cases h with
  | zeroSum hn => simp [hn]
  | rightShift | noShift | leftShift | twoLeftShifts =>
    simp only at hrange
    simp (disch := omega) only [if_pos, if_neg]
    simp
  | clamp hlo hhi he =>
    simp (disch := omega) only [if_pos, if_neg]
    split
    next => simp
    next h2 => simp [show n = 1 by omega]
  | leftShiftClamp hn he => simp [hn, show commonExp a b = 1 from he]

/-- Settles O33: saturated, both sides are `0x78` with SAT; otherwise both are the working value after step 5. -/
theorem addClosedForm : Obligations.AddClosedForm := by
  intro s a b
  obtain ⟨hcoherent, -⟩ := execOutputs_consistent (.add a b)
  refine ⟨_, exec_add a b s, ?_, hcoherent⟩
  cases hsat : (addOutputs a b).sat with
  | true =>
    obtain ⟨he, hn⟩ := (addOutputs_sat_iff_carry a b).mp hsat
    rw [addOutputs_toNat_of_sat hsat, addClosed_of_carry he hn]
  | false =>
    have he := addNormalised_e_le hsat
    rw [addOutputs_toNat_of_le he, addClosed_of_normalForm (addNormalised_normalForm a b) he]

/-! ### The order of the operands -/

/-- Saturation overwrites the only thing the order of the operands changes (rules R80, R84). -/
theorem addOutputs_comm_of_sat {a b : Word} (h : (addOutputs a b).sat = true) : addOutputs a b = addOutputs b a := by
  have hlt := (addOutputs_sat_iff a b).mp h
  rw [addOutputs_eq, addOutputs_eq]
  generalize hw : addNormalised a b = w at hlt
  rw [addNormalised_swap hw, saturate_of_lt hlt, saturate_of_lt (w := { w with s := signOf b }) hlt]

/-- Without SAT the outputs in the other order are composed of the same values with the other sign (rule R84). -/
theorem addOutputs_swap_of_not_sat {a b : Word} {w : Working} (hw : addNormalised a b = w)
    (h : (addOutputs a b).sat = false) :
    addOutputs a b = finish w ∧ addOutputs b a = finish { w with s := signOf b } := by
  have he := addNormalised_e_le h
  rw [hw] at he
  rw [addOutputs_eq, addOutputs_eq, addNormalised_swap hw, hw, saturate_of_le he,
    saturate_of_le (w := { w with s := signOf b }) he]
  exact ⟨rfl, rfl⟩

/-! ### The other obligations -/

/-- Settles O34: each case is a branch of the alignment, and the rest reads off its closed form. -/
theorem addAlignment : Obligations.AddAlignment := by
  intro a b
  have ha := expOf_le a
  have hb := expOf_le b
  have hmax : commonExp a b = max (expOf a) (expOf b) := rfl
  rw [align_unpack]
  simp only [Nat.shiftRight_eq_div_pow]
  refine ⟨fun h => ?_, fun h => ?_, fun h => ?_, hmax, fun h => ?_, fun h => ?_, by omega⟩
  · simp [hmax, Nat.max_eq_right h.le]
  · simp [hmax, Nat.max_eq_left h.le]
  · simp [hmax, h]
  · exact sigOf_div_eq_zero a (by omega)
  · exact sigOf_div_eq_zero b (by omega)

/-- Settles O35: the sign of `a` goes through to bit 7, and neither the aligned sum nor the common exponent reads the
sign of `b`. -/
theorem addSignOfFirst : Obligations.AddSignOfFirst := by
  intro s a b
  refine ⟨by rw [addSum_eq_alignedSum], ⟨_, exec_add a b s, addOutputs_getLsbD_seven⟩, ?_⟩
  rw [exec_add, exec_add, addOutputs_xor_signBit]

/-- Settles O36: ZS is set for a zero sum only, from which neither normalisation moves anything. -/
theorem addZeroSum : Obligations.AddZeroSum := by
  intro s a b
  have hiff : (addOutputs a b).zs = true ↔ alignedSum a b = 0 := by
    rw [addOutputs_zs]
    exact (addNormalised_normalForm a b).zs_iff
  refine ⟨_, exec_add a b s, ?_, fun hzs => ?_⟩
  · rw [hiff, align_unpack]
    exact Nat.add_eq_zero_iff
  · have h0 : (addSum a b).f = 0 := by rw [addSum_eq_alignedSum]; exact hiff.mp hzs
    have hright : normaliseRight (addSum a b) = addSum a b := normaliseRight_of_lt (by omega)
    have hnorm : addNormalised a b = { addSum a b with zs := true } := by
      rw [addNormalised, hright, normaliseLeft_zero h0]
    obtain ⟨hys, hye, hyf⟩ := addOutputs_fields_of_le (a := a) (b := b) (by rw [hnorm]; exact addSum_e_le a b)
    refine ⟨?_, ?_, hys, ?_⟩
    · rw [hyf, hnorm, h0]
    · rw [hye, hnorm, addSum_eq_alignedSum]
    · rw [hright, normaliseLeft_zero h0]

/-- Settles O37: the two ways through step 5 that set UF, both of which end at exponent 0. -/
theorem addExponentClamp : Obligations.AddExponentClamp := by
  intro s a b
  have hform := addNormalised_normalForm a b
  refine ⟨_, exec_add a b s, ?_, fun huf => ?_⟩
  · rw [addOutputs_uf]
    exact hform.uf_iff
  · rw [addOutputs_uf] at huf
    obtain ⟨he, hf⟩ := hform.of_uf huf
    obtain ⟨hys, hye, hyf⟩ := addOutputs_fields_of_le (a := a) (b := b) (by omega)
    exact ⟨hye.trans he, hys, hyf.trans hf⟩

/-- Settles O38: the exponent leaves its range only by the right shift at exponent 15. -/
theorem addSaturation : Obligations.AddSaturation := by
  intro s a b
  exact ⟨_, exec_add a b s, addOutputs_sat_iff a b, addOutputs_sat_iff_carry a b, addOutputs_of_sat⟩

/-- Settles O39: normalisation and saturation leave a significand below 8, whose bit 3 is clear. -/
theorem addNeverRounds : Obligations.AddNeverRounds := by
  intro a b
  have hlt := saturate_addNormalised_f_lt a b
  refine ⟨(addNormalised_statusFits a b).f_lt, ?_, roundStep_of_lt hlt⟩
  have hand := Nat.and_two_pow (saturate (addNormalised a b)).f 3
  rwa [Nat.testBit_lt_two_pow hlt] at hand

/-- Settles O40: the orders differ in the sign after step 5 only, which saturation overwrites and bit 7 shows. -/
theorem addOperandOrder : Obligations.AddOperandOrder := by
  intro s a b
  refine ⟨_, _, exec_add a b s, exec_add b a s, ?_⟩
  cases hsat : (addOutputs a b).sat with
  | true =>
    obtain ⟨hy, -⟩ := addOutputs_of_sat hsat
    rw [← addOutputs_comm_of_sat hsat]
    exact ⟨rfl, rfl, by simp, fun _ => ⟨hy, hy⟩, by simp⟩
  | false =>
    obtain ⟨ho, ho'⟩ := addOutputs_swap_of_not_sat rfl hsat
    have hsat' : (addOutputs b a).sat = false := by
      rw [ho', finish_sat]
      exact (addNormalised_normalForm a b).sat_eq_false
    have hbit := addOutputs_getLsbD_seven hsat
    have hbit' := addOutputs_getLsbD_seven hsat'
    refine ⟨?_, ?_, fun _ => ⟨hbit, hbit'⟩, by simp, fun h => .inl (by rw [← hbit, ← hbit', h]), ?_⟩
    · rw [ho, ho']
      rfl
    · apply BitVec.eq_of_toNat_eq
      rw [ho, ho', BitVec.extractLsb'_toNat, BitVec.extractLsb'_toNat, finish_y_toNat, finish_y_toNat]
      simp only [Nat.shiftRight_zero]
      omega
    · rintro (hsign | hfalse)
      · exact addOutputs_comm_of_signOf_eq ((getLsbD_seven_eq_iff a b).mp hsign)
      · simp at hfalse

/-- Settles O41: the sum of two three-bit values, one right shift at most, and the ways through step 5 by status. -/
theorem addBounds : Obligations.AddBounds := by
  intro s a b
  have hform := addNormalised_normalForm a b
  have hE := commonExp_le a b
  have he := hform.exponent_le
  obtain ⟨-, hlegal, -, hzs, huf⟩ := execOutputs_consistent (.add a b)
  refine ⟨by rw [addSum_eq_alignedSum]; exact alignedSum_le a b, by omega, _, exec_add a b s, hlegal, fun hst => ?_,
    fun h => ?_, fun h => (huf h).2⟩
  · have hsat : (addOutputs a b).sat = false := by simp [Outputs.sat, hst]
    have hclear : (addNormalised a b).zs = false ∧ (addNormalised a b).uf = false := by
      simp [← addOutputs_zs, ← addOutputs_uf, Outputs.zs, Outputs.uf, hst]
    obtain ⟨-, -, hyf⟩ := addOutputs_fields_of_le (addNormalised_e_le hsat)
    rw [hyf]
    exact hform.significand_ge hclear.1 hclear.2
  · rcases h with h | h
    · obtain ⟨-, -, -, hyf⟩ := addOutputs_of_sat h
      rw [hyf]
      rfl
    · exact hzs h

end Sys2Proof.Machine
end

