-- ==== Sys2Proof/Proofs/MulSignificand.lean ====
section
/-!
PROOF. MUL's significand path (rules R90 to R95): the long multiplication is the integer product, and right
normalisation of the reversed product is the table of rule R95.
-/

namespace Sys2Proof.Machine

open Sys2Proof.Safety

/-! ### Long multiplication -/

/-- A fold that adds a term for each number below `n` adds their sum. -/
theorem foldl_range_add (g : Nat → Nat) (n r : Nat) :
    (List.range n).foldl (fun q j => q + g j) r = r + ∑ j ∈ Finset.range n, g j := by
  induction n with
  | zero => rfl
  | succ n ih => simp [List.range_succ, Finset.sum_range_succ, ih, Nat.add_assoc]

/-- Long multiplication as a double sum, for any operands: it reads bits 0 to 2 of each (rule R91). -/
theorem longMul_eq_sum (ra rb : Nat) :
    longMul ra rb = ∑ i ∈ Finset.range 3, ∑ j ∈ Finset.range 3,
      if ra.testBit i = true ∧ rb.testBit j = true then 1 <<< (i + j) else 0 := by
  have hbody (c : Prop) [Decidable c] (q x : Nat) : (if c then q + x else q) = q + if c then x else 0 := by
    split <;> rfl
  simp only [longMul, Config.revInWidth, Bool.and_eq_true, hbody, foldl_range_add, Nat.zero_add]

/-- The low `n` bits of a number, each with its weight, add up to its remainder. -/
theorem sum_testBit_toNat (x n : Nat) : ∑ i ∈ Finset.range n, 2 ^ i * (x.testBit i).toNat = x % 2 ^ n := by
  induction n with
  | zero => simp [Nat.mod_one]
  | succ n ih => rw [Finset.sum_range_succ, ih, Nat.toNat_testBit, Nat.pow_succ, Nat.mod_mul]

/-- Long multiplication is the product of the operands' low three bits: the double sum is a product of two sums (rule
R91). -/
theorem longMul_eq_mod_mul_mod (ra rb : Nat) : longMul ra rb = (ra % 8) * (rb % 8) := by
  have hterm (i j : Nat) : (if ra.testBit i = true ∧ rb.testBit j = true then 1 <<< (i + j) else 0) =
      2 ^ i * (ra.testBit i).toNat * (2 ^ j * (rb.testBit j).toNat) := by
    cases ra.testBit i <;> cases rb.testBit j <;> simp [Nat.shiftLeft_eq, Nat.pow_add]
  simp only [longMul_eq_sum, hterm]
  rw [← Finset.sum_mul_sum, sum_testBit_toNat, sum_testBit_toNat]
  rfl

/-- Settles O42: the fold is the double sum, and the operands have three bits each. -/
theorem longMultiplication : Obligations.LongMultiplication := by
  intro ra rb ha hb
  have hmul : longMul ra rb = ra * rb := by rw [longMul_eq_mod_mul_mod, Nat.mod_eq_of_lt ha, Nat.mod_eq_of_lt hb]
  have hle : ra * rb ≤ 7 * 7 := Nat.mul_le_mul (Nat.le_of_lt_succ ha) (Nat.le_of_lt_succ hb)
  exact ⟨longMul_eq_sum ra rb, hmul, hmul ▸ hle⟩

theorem mulSignificand_comm (fa fb : Nat) : mulSignificand fa fb = mulSignificand fb fa := by
  simp only [mulSignificand, longMul_eq_mod_mul_mod, Nat.mul_comm]

/-- A zero significand on either side makes the product zero (rules R90 to R92). -/
theorem mulSignificand_eq_zero {fa fb : Nat} (h : fa = 0 ∨ fb = 0) : mulSignificand fa fb = 0 := by
  have hrev (n : Nat) : rev n 0 = 0 := Nat.eq_of_testBit_eq fun j => by simp [rev_testBit]
  rcases h with rfl | rfl <;> simp [mulSignificand, longMul_eq_mod_mul_mod, hrev]

/-! ### Right normalisation -/

/-- Right normalisation by its number of shifts: `k` of them bring the significand below 8 and fewer do not (rule
R93). -/
theorem normaliseRight_eq_of_shifts {w : Working} {k : Nat} (hlt : w.f / 2 ^ k < 8) (hge : ∀ j < k, 8 ≤ w.f / 2 ^ j) :
    normaliseRight w = { w with f := w.f / 2 ^ k, e := w.e + k } := by
  obtain ⟨n, hn, hnlt, hnge⟩ := normaliseRightLeastShift w
  obtain rfl : n = k := by
    rcases Nat.lt_trichotomy n k with h | h | h
    · exact absurd hnlt (Nat.not_lt.mpr (hge n h))
    · exact h
    · exact absurd hlt (Nat.not_lt.mpr (hnge k h))
  exact hn

/-! ### The table -/

/-- An entry of the table of rule R95 holds the reversed product, as many shifts as bring it below 8, and what they
leave (rules R90 to R93). -/
theorem mulEntry_shifts : ∀ fa < 8, ∀ fb < 8,
    (mulEntry fa fb).1 = mulSignificand fa fb ∧
      (mulEntry fa fb).2.1 = mulSignificand fa fb / 2 ^ (mulEntry fa fb).2.2 ∧ (mulEntry fa fb).2.1 < 8 ∧
      ∀ j < (mulEntry fa fb).2.2, 8 ≤ mulSignificand fa fb / 2 ^ j := by
  decide

/-- The bounds of the table: at most 60 before normalisation, and at most 3 shifts (rules R92, R93). -/
theorem mulEntry_le : ∀ fa < 8, ∀ fb < 8, (mulEntry fa fb).1 ≤ 60 ∧ (mulEntry fa fb).2.2 ≤ 3 := by decide

/-- The significands of the table, and where it has 0 and 2 (rule R95). -/
theorem mulEntry_significand : ∀ fa < 8, ∀ fb < 8,
    (mulEntry fa fb).2.1 ∈ [0, 2, 4, 5, 6, 7] ∧ ((mulEntry fa fb).2.1 = 0 ↔ fa = 0 ∨ fb = 0) ∧
      ((mulEntry fa fb).2.1 = 2 ↔ fa = 1 ∧ fb = 1) := by
  decide

/-- Right normalisation of a product is the table's, at every sign and exponent (rules R93, R95). -/
theorem normaliseRight_mulSignificand {fa fb : Nat} (ha : fa < 8) (hb : fb < 8) (s e : Nat) :
    normaliseRight { s := s, e := e, f := mulSignificand fa fb } =
      { s := s, e := e + (mulEntry fa fb).2.2, f := (mulEntry fa fb).2.1 } := by
  obtain ⟨-, hf, hlt, hge⟩ := mulEntry_shifts fa ha fb hb
  rw [hf] at hlt ⊢
  exact normaliseRight_eq_of_shifts hlt hge

/-- Settles O43: the loop's least number of shifts is the table's, and the rest is the table. -/
theorem mulSignificandTable : Obligations.MulSignificandTable := by
  intro fa fb ha hb
  obtain ⟨hproduct, -⟩ := mulEntry_shifts fa ha fb hb
  exact ⟨hproduct, normaliseRight_mulSignificand ha hb, mulEntry_significand fa ha fb hb⟩

end Sys2Proof.Machine
end

