-- ==== Sys2Proof/Proofs/Mul.lean ====
section
/-!
PROOF. MUL (rules R86 to R99): the working value after step 4 by the table of rule R95, the outputs with and without
saturation, and the obligations, which read off these.
-/

namespace Sys2Proof.Machine

open Sys2Proof.Safety

/-! ### Steps 1 to 4 -/

/-- Steps 1 to 3 by the fields of the words (rules R87 to R92). -/
theorem mulProduct_eq (a b : Word) :
    mulProduct a b =
      { s := signOf a ^^^ signOf b, e := expOf a + expOf b, f := mulSignificand (sigOf a) (sigOf b) } := by
  simp only [mulProduct, unpack_s, unpack_e, unpack_f]
  rfl

theorem mulProduct_comm (a b : Word) : mulProduct a b = mulProduct b a := by
  rw [mulProduct_eq, mulProduct_eq, Nat.xor_comm, Nat.add_comm, mulSignificand_comm]

/-- MUL after step 4 by the table (rules R93, R95). -/
theorem mulNormalised_eq (a b : Word) :
    mulNormalised a b =
      { s := signOf a ^^^ signOf b
        e := expOf a + expOf b + (mulEntry (sigOf a) (sigOf b)).2.2
        f := (mulEntry (sigOf a) (sigOf b)).2.1 } := by
  rw [mulNormalised, mulProduct_eq, normaliseRight_mulSignificand (sigOf_lt_eight a) (sigOf_lt_eight b)]

/-- The exponent after step 4 is `ea + eb + k` of rule R96. -/
theorem mulNormalised_e (a b : Word) :
    (mulNormalised a b).e = expOf a + expOf b + (mulEntry (sigOf a) (sigOf b)).2.2 := by rw [mulNormalised_eq]

/-! ### The outputs -/

/-- MUL samples its outputs and changes nothing else. -/
theorem exec_mul (a b : Word) (s : State) : exec (.mul a b) s = .next { s with out := mulOutputs a b } := exec_eq _ s

theorem mulOutputs_comm (a b : Word) : mulOutputs a b = mulOutputs b a := by
  rw [mulOutputs, mulOutputs, mulNormalised, mulNormalised, mulProduct_comm]

/-- No step of MUL sets ZS (rule R94). -/
@[simp] theorem mulOutputs_zs (a b : Word) : (mulOutputs a b).zs = false := by
  simp [mulOutputs, mulNormalised, mulProduct]

/-- No step of MUL sets UF (rule R94). -/
@[simp] theorem mulOutputs_uf (a b : Word) : (mulOutputs a b).uf = false := by
  simp [mulOutputs, mulNormalised, mulProduct]

/-- The significand after saturation is below 8, so MUL does not round (rules R96, R97). -/
theorem saturate_mulNormalised_f_lt (a b : Word) : (saturate (mulNormalised a b)).f < 8 :=
  (saturate_statusFits (mulNormalised_statusFits a b)).f_lt

theorem mulOutputs_eq (a b : Word) : mulOutputs a b = finish (saturate (mulNormalised a b)) := by
  rw [mulOutputs, roundStep_of_lt (saturate_mulNormalised_f_lt a b)]

/-- The forced values of the saturation step compose to the word `0x78`, with SAT alone (rules R96, R98). -/
theorem finish_saturated :
    finish { s := 0, e := 15, f := 0, sat := true } =
      { y := 0x78#8, ys := 0, ye := 0b1111#4, yf := 0, st := 0b001000#6 } := by decide

/-- Saturated, the outputs are the word `0x78`, its fields and SAT alone (rules R96, R98). -/
theorem mulOutputs_of_lt {a b : Word} (he : 15 < (mulNormalised a b).e) :
    mulOutputs a b = { y := 0x78#8, ys := 0, ye := 0b1111#4, yf := 0, st := 0b001000#6 } := by
  rw [mulOutputs_eq, saturate_of_lt he, mulNormalised_eq]
  exact finish_saturated

/-- With the exponent in range the working value is composed as it is (rules R96, R98). -/
theorem mulOutputs_of_le {a b : Word} (he : (mulNormalised a b).e ≤ 15) :
    mulOutputs a b = finish (mulNormalised a b) := by
  rw [mulOutputs_eq, saturate_of_le he]

/-- SAT is set exactly by the saturation step (rule R96). -/
theorem mulOutputs_sat_iff (a b : Word) : (mulOutputs a b).sat = true ↔ 15 < (mulNormalised a b).e := by
  rcases Nat.lt_or_ge 15 (mulNormalised a b).e with hlt | hle
  · simp [mulOutputs_of_lt hlt, hlt, Outputs.sat]
  · have hclear : (mulNormalised a b).sat = false := by rw [mulNormalised_eq]
    simp [mulOutputs_of_le hle, hclear, hle]

/-- Without SAT the exponent after step 4 is in range (rule R96). -/
theorem mulNormalised_e_le {a b : Word} (h : (mulOutputs a b).sat = false) : (mulNormalised a b).e ≤ 15 := by
  rw [← Nat.not_lt, ← mulOutputs_sat_iff, h]
  decide

theorem xor_signOf_lt_two (a b : Word) : signOf a ^^^ signOf b < 2 :=
  Nat.xor_lt_two_pow (n := 1) (signOf_lt_two a) (signOf_lt_two b)

/-- With the exponent in range the output fields are the working value's (rules R88, R98). -/
theorem mulOutputs_fields_of_le {a b : Word} (he : (mulNormalised a b).e ≤ 15) :
    (mulOutputs a b).ys.toNat = signOf a ^^^ signOf b ∧ (mulOutputs a b).ye.toNat = (mulNormalised a b).e ∧
      (mulOutputs a b).yf.toNat = (mulNormalised a b).f := by
  have hs : (mulNormalised a b).s = signOf a ^^^ signOf b := by rw [mulNormalised_eq]
  have hfit : FieldsFit (mulNormalised a b).s (mulNormalised a b).e (mulNormalised a b).f :=
    ⟨hs ▸ Nat.le_of_lt_succ (xor_signOf_lt_two a b), he, Nat.le_of_lt_succ (mulNormalised_statusFits a b).f_lt⟩
  rw [mulOutputs_of_le he, ← hs]
  exact Outputs.ofResult_packWord_fields hfit _

/-! ### The obligations -/

/-- The closed form by the working value after step 4 (rules R88, R94 to R96). -/
theorem mulClosed_eq (a b : Word) :
    mulClosed a b =
      if 15 < (mulNormalised a b).e then (0x78, 8)
      else (128 * ((signOf a + signOf b) % 2) + 8 * (mulNormalised a b).e + (mulNormalised a b).f, 0) := by
  rw [mulNormalised_eq]
  rfl

/-- Settles O44: saturated, both sides are `0x78` with SAT; otherwise both are the table's working value. -/
theorem mulClosedForm : Obligations.MulClosedForm := by
  intro s a b
  obtain ⟨hcoherent, -⟩ := execOutputs_consistent (.mul a b)
  refine ⟨_, exec_mul a b s, ?_, hcoherent⟩
  rcases Nat.lt_or_ge 15 (mulNormalised a b).e with hlt | hle
  · rw [mulOutputs_of_lt hlt, mulClosed_eq, if_pos hlt]
    rfl
  · have hs : (mulNormalised a b).s % 2 = (signOf a + signOf b) % 2 := by rw [mulNormalised_eq, Nat.xor_mod_two_eq]
    have hf := (mulNormalised_statusFits a b).f_lt
    have hst : (finish (mulNormalised a b)).st.toNat = 0 := by rw [finish_st_toNat, mulNormalised_eq]; rfl
    rw [mulOutputs_of_le hle, mulClosed_eq, if_neg (Nat.not_lt.mpr hle), hst, finish_y_toNat, hs, Prod.mk.injEq]
    omega

/-- Bit 7 of a word is the only bit of its sign (rule R41). -/
theorem getLsbD_seven_eq_testBit (w : Word) : w.getLsbD 7 = (signOf w).testBit 0 :=
  (Nat.testBit_div_two_pow (n := 7) w.toNat 0).symm

/-- Settles O45: without SAT the output's sign is the working value's, whose one bit is the XOR of theirs. -/
theorem mulSignXor : Obligations.MulSignXor := by
  intro s a b
  refine ⟨by rw [mulProduct_eq], _, exec_mul a b s, fun hsat => ?_⟩
  obtain ⟨⟨hcoherent, -⟩, -⟩ := execOutputs_consistent (.mul a b)
  obtain ⟨hys, -⟩ := mulOutputs_fields_of_le (mulNormalised_e_le hsat)
  have hsign : signOf (mulOutputs a b).y = signOf a ^^^ signOf b := hcoherent.symm.trans hys
  simp only [getLsbD_seven_eq_testBit, hsign, Nat.testBit_xor]

/-- Settles O46: SAT tells the exponent after step 4, which is `ea + eb + k`, and then the outputs are fixed. -/
theorem mulSaturation : Obligations.MulSaturation := by
  intro s a b
  refine ⟨_, exec_mul a b s, mulOutputs_sat_iff a b, ?_, fun hsat => ?_⟩
  · rw [mulOutputs_sat_iff, mulNormalised_e]
  · rw [mulOutputs_of_lt ((mulOutputs_sat_iff a b).mp hsat)]
    exact ⟨rfl, rfl, rfl, rfl⟩

/-- Settles O47: right normalisation leaves a significand below 8 alone, and a factor 0 makes it 0. -/
theorem mulKeepsSmallSignificands : Obligations.MulKeepsSmallSignificands := by
  intro s a b
  have hsmall : mulSignificand (sigOf a) (sigOf b) < 8 → mulNormalised a b = mulProduct a b := fun h =>
    normaliseRight_of_lt (by rwa [mulProduct_eq])
  refine ⟨_, exec_mul a b s, mulOutputs_zs a b, mulOutputs_uf a b, hsmall, fun hzero hsum => ?_⟩
  have hf : mulSignificand (sigOf a) (sigOf b) = 0 := mulSignificand_eq_zero hzero
  have hw : mulNormalised a b = { s := signOf a ^^^ signOf b, e := expOf a + expOf b, f := 0 } := by
    rw [hsmall (by omega), mulProduct_eq, hf]
  have he : (mulNormalised a b).e ≤ 15 := by rwa [hw]
  obtain ⟨-, hye, hyf⟩ := mulOutputs_fields_of_le he
  rw [hw] at hye hyf
  exact ⟨hyf, hye, Bool.eq_false_iff.mpr fun h => absurd ((mulOutputs_sat_iff a b).mp h) (Nat.not_lt.mpr he)⟩

/-- Settles O48: normalisation and saturation leave a significand below 8, whose bit 3 is clear. -/
theorem mulNeverRounds : Obligations.MulNeverRounds := by
  intro a b
  have hlt := saturate_mulNormalised_f_lt a b
  refine ⟨(mulNormalised_statusFits a b).f_lt, ?_, roundStep_of_lt hlt⟩
  have hand := Nat.and_two_pow (saturate (mulNormalised a b)).f 3
  rwa [Nat.testBit_lt_two_pow hlt] at hand

/-- Settles O49: each step before normalisation commutes; the bounds are the table's, on two exponents of at most 15. -/
theorem mulCommutes : Obligations.MulCommutes := by
  intro s a b
  have ha := expOf_le a
  have hb := expOf_le b
  obtain ⟨hproduct, -⟩ := mulEntry_shifts _ (sigOf_lt_eight a) _ (sigOf_lt_eight b)
  obtain ⟨h60, h3⟩ := mulEntry_le _ (sigOf_lt_eight a) _ (sigOf_lt_eight b)
  refine ⟨⟨_, exec_mul a b s, by rw [exec_mul, mulOutputs_comm]⟩, hproduct ▸ h60, ?_⟩
  rw [mulNormalised_e]
  omega

end Sys2Proof.Machine
end

