-- ==== Sys2Proof/Proofs/Totality.lean ====
section
/-!
PROOF. Nothing traps: every operation and every step ends in a next state (rule R100).
-/

namespace Sys2Proof.Machine

/-- Settles O12: an instruction samples its outputs; a step samples those of the selected instruction or, on inputs
that are not settled, the next free value. -/
theorem nothingTraps : Obligations.NothingTraps := by
  refine ⟨fun i s => ⟨execOutputs i, exec_eq i s⟩, fun s => ?_⟩
  rcases step_cases s with ⟨i, -, -, hsample⟩ | ⟨-, hfree⟩
  · exact ⟨s.sample (execOutputs i), hsample⟩
  · exact ⟨s.sampleAny, hfree⟩

end Sys2Proof.Machine
end

