-- ==== Sys2Proof/Proofs/Hazards.lean ====
section
/-!
PROOF. Power-up, and the caller's two duties: what a step does when one is not met, what a step leaves alone, and when
newly driven inputs are stable still (rules R112, R113, R115, R117, R120).
-/

namespace Sys2Proof.Machine

open Sys2Proof.Safety

/-! ### Sampling -/

/-- With `op` or a port its operation reads undriven, the ports select no instruction (rule R115). -/
theorem Inputs.not_selects_of_undriven {p : Inputs} (i : Instr)
    (h : p.op = none ∨ (p.op = some 0b00#2 ∧ p.a = none) ∨
      (p.op = some 0b01#2 ∧ (p.ps = none ∨ p.pe = none ∨ p.pf = none)) ∨
      ((p.op = some 0b10#2 ∨ p.op = some 0b11#2) ∧ (p.a = none ∨ p.b = none))) : ¬ p.Selects i := by
  intro hsel
  cases i with
  | unpack a => obtain ⟨hop, ha⟩ := hsel; simp [hop, ha] at h
  | pack ps pe pf => obtain ⟨hop, hs, he, hf⟩ := hsel; simp [hop, hs, he, hf] at h
  | add a b => obtain ⟨hop, ha, hb⟩ := hsel; simp [hop, ha, hb] at h
  | mul a b => obtain ⟨hop, ha, hb⟩ := hsel; simp [hop, ha, hb] at h

/-- Settles O11: a step that samples an instruction has stable inputs, which select that instruction; these do not. -/
theorem unsettledSampleIsFree : Obligations.UnsettledSampleIsFree := by
  intro s h
  rcases step_cases s with ⟨i, hready, hsel, -⟩ | ⟨-, hfree⟩
  · obtain ⟨hst, -⟩ := s.ready_iff.mp hready
    rcases h with hunstable | hundriven
    · simp [hst] at hunstable
    · exact absurd hsel (Inputs.not_selects_of_undriven i hundriven)
  · exact hfree

/-- Settles O13: a sample of an instruction's outputs counts nothing, a free value counts one; both leave the inputs. -/
theorem stepFrame : Obligations.StepFrame := by
  intro s t hstep
  rcases step_cases s with ⟨i, hready, -, hi⟩ | ⟨hready, hfree⟩
  · obtain rfl : s.sample (execOutputs i) = t := by simpa [hi] using hstep
    simp [hready]
  · obtain rfl : s.sampleAny = t := by simpa [hfree] using hstep
    simp [hready]

/-! ### Driving -/

/-- The comparison `drive` makes is agreement on `op`, driven, and on the ports its operation reads (rules R30, R46). -/
theorem Inputs.sameRead_iff (p q : Inputs) : p.sameRead q = true ↔ p.op ≠ none ∧ SameRead p q := by
  cases hop : p.op with
  | none => simp [Inputs.sameRead, hop]
  | some c =>
    obtain ⟨sel, rfl⟩ : ∃ sel : Select, sel.bits = c := ⟨_, Select.bits_ofBits c⟩
    cases sel <;> simp [Inputs.sameRead, SameRead, hop, Select.bits, Select.ofBits, and_assoc]

/-- Settles O17: `drive` keeps the flag exactly where its comparison succeeds. -/
theorem driveKeepsStability : Obligations.DriveKeepsStability := by
  intro s p
  rw [State.drive_stable, Bool.and_eq_true, Inputs.sameRead_iff]

/-- Settles O16: the vector is driven and held, so the step is that of stable ports that hold it. -/
theorem evaluateAnyHistory : Obligations.EvaluateAnyHistory := fun _ _ => step_of_inp_ofVector rfl rfl

/-! ### Power-up -/

/-- Settles O19: each part is a field of `State.reset`; without stability it is not ready. -/
theorem resetDrivesNothing : Obligations.ResetDrivesNothing := ⟨rfl, rfl, rfl, rfl⟩

/-- Settles O52: outputs that are 0 throughout agree with each other, and no status bit is set. -/
theorem resetOutputInv : Obligations.ResetOutputInv :=
  have hzero : Consistent State.reset.out := by decide
  .inl hzero

end Sys2Proof.Machine
end
